-- ==== Sys2Proof/Word.lean ====
section
/-! DEFINITION. The fixed-width types of the comp-m2 core (00_scope.md R6, R7, R9). `v.getLsbD i` and
`v[i]` are the bit of weight `2 ^ i`, as rule R7 writes it; the source's bit `k` of an `N`-bit value is
bit `N - 1 - k` here. -/

namespace Sys2Proof

/-- R9: "fixed 8-bit value, unsigned range 0–255". -/
abbrev Word := BitVec 8

/-- R9: "fixed 4-bit value, unsigned range 0–15; 15 is the halt sentinel". -/
abbrev Address := BitVec 4

/-- R9: a 4-bit sequence; an opcode or an operand field of an instruction Word. -/
abbrev Nibble := BitVec 4

/-- R24: an index of a storage Word, 0 to 14. Index 15 cannot be written down. -/
abbrev Index := Fin 15

/-- R24, R36: a bit index of the host port, 0 to 7, numbered as the SOURCE numbers bits: 0 is the most
significant. -/
abbrev BitIndex := Fin 8

end Sys2Proof
end

