-- ==== Sys2Proof/Machine/Kernel.lean ====
section
/-! DEFINITION. The bit-vector arithmetic kernel (40_alu.md R48 to R55): total functions on fixed-width
bit sequences. Operands of the two-operand functions share one width type, so a length mismatch cannot be
written down (R53); Machine/HostPort.lean has the form that takes lengths at run time. -/

namespace Sys2Proof.Kernel

/-- R48: the unsigned value of a bit sequence, an unbounded integer. -/
def toUnsigned {L : Nat} (v : BitVec L) : Int := v.toNat

/-- R49: encode with saturation, never modular wraparound. -/
def fromUnsignedSaturating (x : Int) (L : Nat) : BitVec L :=
  if x ≤ 0 then 0
  else if x ≥ 2 ^ L - 1 then BitVec.allOnes L
  else BitVec.ofNat L x.toNat

/-- R50. -/
def sat8 (x : Int) : Word := fromUnsignedSaturating x 8

/-- R51: (high nibble, low nibble). -/
def splitNibbles (w : Word) : Nibble × Nibble := (w.extractLsb' 4 4, w.extractLsb' 0 4)

/-- R52: one sign bit, `n[3]`, then a three-bit magnitude, `n[2:0]`. -/
def decodeSignedNibble (n : Nibble) : Int :=
  if n.getLsbD 3 then -toUnsigned (n.extractLsb' 0 3) else toUnsigned (n.extractLsb' 0 3)

/-- R53. -/
def bitwiseAnd {L : Nat} (a b : BitVec L) : BitVec L := a &&& b

/-- R53. -/
def bitwiseOr {L : Nat} (a b : BitVec L) : BitVec L := a ||| b

/-- R53. -/
def bitwiseXor {L : Nat} (a b : BitVec L) : BitVec L := a ^^^ b

/-- R54. -/
def bitwiseNot {L : Nat} (a : BitVec L) : BitVec L := ~~~a

/-- R55: logical shift right by one bit, zero fill. -/
def shr1 (w : Word) : Word := w >>> 1

/-- R36: the bit of `w` that the host port calls `bitIndex` (source numbering). -/
def sourceBit (w : Word) (bitIndex : BitIndex) : Bool := w.getLsbD (7 - bitIndex)

/-- R36: `w` with the bit that the host port calls `bitIndex` set to `b`, and no other bit changed. -/
def withSourceBit (w : Word) (bitIndex : BitIndex) (b : Bool) : Word :=
  let mask : Word := 1#8 <<< (7 - bitIndex.val)
  if b then w ||| mask else w &&& ~~~mask

end Sys2Proof.Kernel
end

