-- ==== Sys2Proof/Syntax.lean ====
section
/-! DEFINITION. The instructions (30_encoding.md R43), the two address spaces (20_memory.md R21), the raw
requests of the host port (60_exceptions.md R79) and the assembler's source lines (30_encoding.md R46,
R47). -/

namespace Sys2Proof

/-- R43: one constructor per row of the opcode table. Each carries its operand nibble, the ignored ones
too (R44), so that a Word and its instruction determine each other. -/
inductive Instr where
  /-- opcode 0, R69 -/
  | read (n : Address)
  /-- opcode 1, R70 -/
  | write (n : Address)
  /-- opcode 2, R71 -/
  | add (n : Address)
  /-- opcode 3, R72 -/
  | sub (n : Address)
  /-- opcode 4, R73 -/
  | jump (t : Address)
  /-- opcode 5, R74 -/
  | jumpIfMax (t : Address)
  /-- opcode 6, R75 -/
  | jumpIfMin (t : Address)
  /-- opcode 7, R76; the operand is ignored -/
  | shiftRight (x : Nibble)
  /-- opcode 8, R77; the operand is ignored, here and below -/
  | reserved8 (x : Nibble)
  | reserved9 (x : Nibble)
  | reserved10 (x : Nibble)
  | reserved11 (x : Nibble)
  | reserved12 (x : Nibble)
  | reserved13 (x : Nibble)
  | reserved14 (x : Nibble)
  | reserved15 (x : Nibble)
deriving DecidableEq, Repr

/-- R21: memory holds exactly two address spaces. -/
inductive Space where
  | code
  | data
deriving DecidableEq, Repr

/-- R79: a request at the host port that carries raw numbers instead of typed indices. -/
inductive RawRequest where
  | readWord (space : Space) (index : Nat)
  | writeWord (space : Space) (index : Nat) (w : Word)
  | readBit (space : Space) (index bitIndex : Nat)
  | writeBit (space : Space) (index bitIndex : Nat) (b : Bool)
deriving DecidableEq, Repr

/-- R46: the mnemonics of the assembler. The reserved opcodes have none; they are written as `.word`. -/
inductive Mnemonic where
  | read
  | write
  | add
  | sub
  | jump
  | jumpIfMax
  | jumpIfMin
  | shiftRight
deriving DecidableEq, Repr

/-- R46: an operand is a decimal number or a label. -/
inductive AsmOperand where
  | num (n : Nat)
  | label (name : String)
deriving DecidableEq, Repr

/-- R46, R47: what a source line places in Code: an instruction, the pseudo-instruction `halt`, or a raw
Word. -/
inductive AsmItem where
  | instr (m : Mnemonic) (operand : Option AsmOperand)
  | halt
  | word (value : Nat)
deriving DecidableEq, Repr

/-- R46: a source line, with its comment left out. -/
structure AsmLine where
  label : Option String
  item : Option AsmItem
deriving DecidableEq, Repr

end Sys2Proof
end

