-- ==== Sys2Proof/Decode.lean ====
section
/-! DEFINITION. The decoder and the encoder (30_encoding.md R41 to R45, 41_step_cycle.md R60). -/

namespace Sys2Proof

/-- R43: the row an opcode selects, with the operand put in. -/
def ofFields (opcode operand : Nibble) : Instr :=
  match opcode.toNat with
  | 0 => .read operand
  | 1 => .write operand
  | 2 => .add operand
  | 3 => .sub operand
  | 4 => .jump operand
  | 5 => .jumpIfMax operand
  | 6 => .jumpIfMin operand
  | 7 => .shiftRight operand
  | 8 => .reserved8 operand
  | 9 => .reserved9 operand
  | 10 => .reserved10 operand
  | 11 => .reserved11 operand
  | 12 => .reserved12 operand
  | 13 => .reserved13 operand
  | 14 => .reserved14 operand
  | _ => .reserved15 operand

/-- R60: decode is `splitNibbles`; every one of the 256 Words decodes. -/
def decodeWord (w : Word) : Instr := ofFields (Kernel.splitNibbles w).1 (Kernel.splitNibbles w).2

/-- Why a sequence of Words has no first instruction. No Word is refused (R44). -/
inductive DecodeError where
  /-- the sequence is empty -/
  | noWord
deriving DecidableEq, Repr

/-- R45: the first instruction of a sequence of Words, and the Words after it. -/
def decode : List Word → Except DecodeError (Instr × List Word)
  | [] => .error .noWord
  | w :: rest => .ok (decodeWord w, rest)

/-- R43: the opcode number of an instruction. -/
def opcodeOf : Instr → Nibble
  | .read _ => 0
  | .write _ => 1
  | .add _ => 2
  | .sub _ => 3
  | .jump _ => 4
  | .jumpIfMax _ => 5
  | .jumpIfMin _ => 6
  | .shiftRight _ => 7
  | .reserved8 _ => 8
  | .reserved9 _ => 9
  | .reserved10 _ => 10
  | .reserved11 _ => 11
  | .reserved12 _ => 12
  | .reserved13 _ => 13
  | .reserved14 _ => 14
  | .reserved15 _ => 15

/-- R42: the operand nibble of an instruction. -/
def operandOf : Instr → Nibble
  | .read n => n
  | .write n => n
  | .add n => n
  | .sub n => n
  | .jump t => t
  | .jumpIfMax t => t
  | .jumpIfMin t => t
  | .shiftRight x => x
  | .reserved8 x => x
  | .reserved9 x => x
  | .reserved10 x => x
  | .reserved11 x => x
  | .reserved12 x => x
  | .reserved13 x => x
  | .reserved14 x => x
  | .reserved15 x => x

/-- R41: the instruction Word is `opcode ++ operand`. -/
def encodeWord (i : Instr) : Word := opcodeOf i ++ operandOf i

/-- R45: every instruction is one Word. -/
def encode (i : Instr) : List Word := [encodeWord i]

/-- One row of the opcode table: the Words `w` with `w &&& mask = value` are the row's. -/
structure OpcodeRow where
  mnemonic : String
  mask : Word
  value : Word
deriving DecidableEq, Repr

/-- R43: the opcode table, as spec/opcode_table.json gives match and mask. -/
def opcodeTable : List OpcodeRow :=
  [⟨"read", 0xF0#8, 0x00#8⟩, ⟨"write", 0xF0#8, 0x10#8⟩, ⟨"add", 0xF0#8, 0x20#8⟩, ⟨"sub", 0xF0#8, 0x30#8⟩,
   ⟨"jump", 0xF0#8, 0x40#8⟩, ⟨"jumpIfMax", 0xF0#8, 0x50#8⟩, ⟨"jumpIfMin", 0xF0#8, 0x60#8⟩,
   ⟨"shiftRight", 0xF0#8, 0x70#8⟩, ⟨"reserved8", 0xF0#8, 0x80#8⟩, ⟨"reserved9", 0xF0#8, 0x90#8⟩,
   ⟨"reserved10", 0xF0#8, 0xA0#8⟩, ⟨"reserved11", 0xF0#8, 0xB0#8⟩, ⟨"reserved12", 0xF0#8, 0xC0#8⟩,
   ⟨"reserved13", 0xF0#8, 0xD0#8⟩, ⟨"reserved14", 0xF0#8, 0xE0#8⟩, ⟨"reserved15", 0xF0#8, 0xF0#8⟩]

/-- R43: the name of the row an instruction belongs to. -/
def mnemonicOf : Instr → String
  | .read _ => "read"
  | .write _ => "write"
  | .add _ => "add"
  | .sub _ => "sub"
  | .jump _ => "jump"
  | .jumpIfMax _ => "jumpIfMax"
  | .jumpIfMin _ => "jumpIfMin"
  | .shiftRight _ => "shiftRight"
  | .reserved8 _ => "reserved8"
  | .reserved9 _ => "reserved9"
  | .reserved10 _ => "reserved10"
  | .reserved11 _ => "reserved11"
  | .reserved12 _ => "reserved12"
  | .reserved13 _ => "reserved13"
  | .reserved14 _ => "reserved14"
  | .reserved15 _ => "reserved15"

/-- The one Word that the low `nbits` bits of `w` make, the bits above them zero. -/
def tableWord (nbits w : Nat) : Word := BitVec.ofNat 8 (w % 2 ^ nbits)

/-- The instruction the decoder reads from a table word of `nbits` bits; an instruction is one Word (R45),
so a longer one is refused. -/
def decodeTableWord (nbits w : Nat) : Option Instr :=
  if nbits ≤ 8 then
    match decode [tableWord nbits w] with
    | .ok (i, _) => some i
    | .error _ => none
  else none

end Sys2Proof
end

