-- ==== Sys2Proof/Config.lean ====
section
/-! DEFINITION. The implementation parameters of rule R6 (00_scope.md). `MEM_INIT` is no constant: it is
the memory a state holds at launch, and claims range over it (assumption log 1). `OPERAND15_POLICY` is
`fault`, and the spec does not take its alternatives (D2, assumption log 3). -/

namespace Sys2Proof.Config

/-- R6 `WORD_SIZE`. -/
def wordSize : Nat := 8

/-- R6 `ADDR_SIZE`. -/
def addrSize : Nat := 4

/-- R6 `RAM_SIZE`: Words in each address space. -/
def ramSize : Nat := 15

/-- R6 `HALT`: the Address with all four bits set. -/
abbrev haltSentinel : Address := 15#4

/-- R6 `RESERVED_OPCODE_POLICY`: what a reserved opcode does (D3, I1). -/
inductive ReservedOpcodePolicy where
  | nop
  | refuse
deriving DecidableEq, Repr

/-- R6, D3: the spec's choice is `nop`. UNVERIFIED, unsafe: assumption log 2. -/
def reservedOpcodePolicy : ReservedOpcodePolicy := .nop

end Sys2Proof.Config
end

