-- ==== Sys2Proof/Machine/State.lean ====
section
/-! DEFINITION. The state of the core and its memory (10_state.md R10, 20_memory.md R21), the state right
after reset (10_state.md R20), and the reasons a step or a host request can stop. -/

namespace Sys2Proof.Machine

/-- R14: the run state. `Faulted` is the spec's addition (D5). -/
inductive RunState where
  | running
  | halted
  | faulted
deriving DecidableEq, Repr

/-- R78: the cause codes of a fault record, named. -/
inductive FaultCause where
  /-- code 1: operand 15 on `read`, `write`, `add` or `sub` -/
  | invalidDataIndex
  /-- code 2: kept for the host side (R79); the core never records it -/
  | invariantViolation
deriving DecidableEq, Repr

/-- R78: the fault record: the cause, the faulting instruction's Code index, the fetched Word. -/
structure FaultRecord where
  cause : FaultCause
  pc : Address
  word : Word
deriving DecidableEq, Repr

/-- One address space, sparse: the Words that differ from what an unlisted index reads as, by index.
`Cells.wf` (Machine/Memory.lean) is its one canonical form. Assumption log 10. -/
abbrev Cells := List Host.Cell

/-- R21: exactly one Code space and one Data space. -/
structure Memory where
  code : Cells
  data : Cells
deriving DecidableEq, Repr

/-- R10: the engine's state, and the Memory it is bound to. -/
structure State where
  /-- R11: the accumulator -/
  acc : Word
  /-- R12: the program counter -/
  pc : Address
  /-- R15: the cycle counter; assumption log 9 -/
  cycle : Nat
  /-- R14: the run state -/
  run : RunState
  /-- R16: the current-instruction register -/
  ir : Option Word
  /-- R17: the fault record -/
  fault : Option FaultRecord
  /-- R21: Code and Data -/
  mem : Memory
deriving DecidableEq, Repr

/-- A memory with nothing listed: what `State.reset` is bound to. Assumption log 1. -/
def Memory.unloaded : Memory := ⟨[], []⟩

/-- R20: the state after reset. The spec fixes every engine element; it does not fix Code and Data
(R96, assumption log 1). -/
def State.reset : State :=
  { acc := 0, pc := 0, cycle := 0, run := .running, ir := none, fault := none, mem := Memory.unloaded }

/-- Why a step stops with a fault: never. The one fault of the core, `InvalidDataIndex`, has an entry the
spec describes (R80), so it is a next state (`raiseFault`), and R78 says nothing else can fault. Nobody
raises a fault, so the type has no constructor; that is safe. Assumption log 3. -/
inductive Fault where
deriving DecidableEq, Repr

/-- Why an instruction or a request is refused. -/
inductive Refusal where
  /-- raised by an arm of `exec` whose instruction has no meaning; no arm raises it; safe -/
  | notModelled (mnemonic : String)
  /-- raised by a reserved opcode under `RESERVED_OPCODE_POLICY = refuse` (R77, I1), which this model's
  Config does not take; safe -/
  | reservedOpcode
  /-- raised by the host port on a raw request with an index outside 0..14 or a bit index outside 0..7
  (R79, code 2); never by a step; safe -/
  | invariantViolation
  /-- raised by the kernel's run-time-length functions on operands of different lengths (R53, R79); never
  by a step; safe -/
  | invalidOperand
deriving DecidableEq, Repr

end Sys2Proof.Machine
end

