-- ==== Sys2Proof/Machine/Memory.lean ====
section
/-! DEFINITION. Reading and writing the two address spaces (20_memory.md R21, R23), and the canonical form
of a space. -/

namespace Sys2Proof.Machine

/-- What an index that is not listed reads as. The spec gives no contents (R96). DESIGN CHOICE, unsafe for
a claim about a run from `State.reset` that reads a Word nothing has written: assumption log 1. -/
def unlistedWord : Word := 0

/-- The Word at an index: the listed one, or `unlistedWord`. -/
def Cells.read (c : Cells) (a : Nat) : Word :=
  match c with
  | [] => unlistedWord
  | (b, v) :: rest => if a = b then v else Cells.read rest a

/-- Put a Word at its place in the rising order. -/
def Cells.insert (c : Cells) (a : Nat) (w : Word) : Cells :=
  match c with
  | [] => [(a, w)]
  | (b, v) :: rest => if a < b then (a, w) :: (b, v) :: rest else (b, v) :: Cells.insert rest a w

/-- Replace the Word at an index. An index that then reads as an unlisted one is not listed. -/
def Cells.write (c : Cells) (a : Nat) (w : Word) : Cells :=
  let others := c.filter fun cell => cell.1 ≠ a
  if w = unlistedWord then others else Cells.insert others a w

/-- The canonical form of one space: indices 0..14 strictly rising, and no entry equal to what an unlisted
index reads as. -/
abbrev Cells.wf (c : Cells) : Prop :=
  c.Pairwise (fun x y => x.1 < y.1) ∧ ∀ cell ∈ c, cell.1 < 15 ∧ cell.2 ≠ unlistedWord

/-- Both spaces are in canonical form. -/
abbrev Memory.wf (m : Memory) : Prop := Cells.wf m.code ∧ Cells.wf m.data

/-- The list that holds a space. -/
def Memory.cells (m : Memory) (space : Space) : Cells :=
  match space with
  | .code => m.code
  | .data => m.data

/-- R23 `MemRead(space, i)`. -/
def memRead (m : Memory) (space : Space) (i : Index) : Word := Cells.read (m.cells space) i.val

/-- R23 `MemWrite(space, i, v)`: "total replacement of the word at that index". -/
def memWrite (m : Memory) (space : Space) (i : Index) (w : Word) : Memory :=
  match space with
  | .code => { m with code := Cells.write m.code i.val w }
  | .data => { m with data := Cells.write m.data i.val w }

/-- R36 `readBit`. -/
def memReadBit (m : Memory) (space : Space) (i : Index) (k : BitIndex) : Bool :=
  Kernel.sourceBit (memRead m space i) k

/-- R36 `writeBit`: a read, one bit changed, a write. -/
def memWriteBit (m : Memory) (space : Space) (i : Index) (k : BitIndex) (b : Bool) : Memory :=
  memWrite m space i (Kernel.withSourceBit (memRead m space i) k b)

/-- R37: where Word number `k` of a bulk load goes: Code first, then Data; from 30 on it is ignored. -/
def placeWord (m : Memory) (k : Nat) (w : Word) : Memory :=
  if hc : k < 15 then memWrite m .code ⟨k, hc⟩ w
  else if hd : k - 15 < 15 then memWrite m .data ⟨k - 15, hd⟩ w
  else m

/-- R37: place the Words of a sequence, the first of them as number `k`. -/
def placeWords (m : Memory) (k : Nat) (ws : List Word) : Memory :=
  match ws with
  | [] => m
  | w :: rest => placeWords (placeWord m k w) (k + 1) rest

/-- R37: bulk load. The Words the sequence does not reach are unspecified (D9): they are those of
`unreached`, an argument about which nothing is assumed. Assumption log 8. -/
def bulkLoad (ws : List Word) (unreached : Memory) : Memory := placeWords unreached 0 ws

/-- R38: bulk dump: `Code[0..14]`, then `Data[0..14]`. -/
def bulkDump (m : Memory) : List Word :=
  (List.finRange 15).map (memRead m .code) ++ (List.finRange 15).map (memRead m .data)

end Sys2Proof.Machine
end

