-- ==== Sys2Proof/Machine/Operands.lean ====
section
/-! DEFINITION. The operand forms (30_encoding.md R42). The one addressing mode of the data instructions is
absolute: the operand is the Data index. A jump's operand is its target and needs no form of its own; the
other instructions ignore theirs. -/

namespace Sys2Proof.Machine

/-- The storage index an Address names; 15 names no Word (R24, R28). It serves the data operand (R61) and
the fetch (R58). -/
def storageIndex (a : Address) : Option Index :=
  if h : a.toNat < 15 then some ⟨a.toNat, h⟩ else none

/-- R69, R71, R72: the Data Word an instruction reads. -/
def dataOperand (s : State) (i : Index) : Word := memRead s.mem .data i

end Sys2Proof.Machine
end

