-- ==== Sys2Proof/Machine/Ops.lean ====
section
/-! DEFINITION. The shared operations of a step (41_step_cycle.md R57) and the entry of the one fault
(60_exceptions.md R80), with the one way out of it beside it (R84, 70_reset_and_hazards.md R95). -/

namespace Sys2Proof.Machine

/-- What `exec` and `step` answer. -/
abbrev Result := Host.Outcome State Fault Refusal

/-- R11: write the accumulator. -/
def setAcc (v : Word) (s : State) : State := { s with acc := v }

/-- R70: write a Data Word. -/
def storeData (i : Index) (v : Word) (s : State) : State := { s with mem := memWrite s.mem .data i v }

/-- R67: a step does nothing unless the engine is `Running`. -/
def stopped (s : State) : Bool := s.run ≠ .running

/-- R58, R59: the Word at `Code[pc]`; none at the halt sentinel, which names no Code Word. -/
def fetch (s : State) : Option Word :=
  match storageIndex s.pc with
  | some i => some (memRead s.mem .code i)
  | none => none

/-- R59: record the fetched Word in the current-instruction register. -/
def recordFetch (w : Word) (s : State) : State := { s with ir := some w }

/-- R63, R64: the end of an executed instruction. `pc` becomes the target if the transfer is taken, else
`pc + 1` modulo 16, and `cycle` rises by one. -/
def retire (taken : Bool) (target : Address) (s : State) : State :=
  { s with pc := if taken then target else s.pc + 1, cycle := s.cycle + 1 }

/-- R63, R64: the end of an instruction that transfers no control. -/
def advance (s : State) : State := retire false 0 s

/-- R58: the step that finds the halt sentinel. -/
def enterHalted (s : State) : State := { s with run := .halted }

/-- R80: fault entry. The record is written and the engine stops in `Faulted`; `acc`, `pc`, `cycle`, `ir` and
memory keep their values. -/
def raiseFault (cause : FaultCause) (word : Word) (s : State) : State :=
  { s with fault := some { cause := cause, pc := s.pc, word := word }, run := .faulted }

/-- R95: reset, the construction of a fresh engine bound to a Memory. It is the only way out of `Halted` and
`Faulted` (R84). -/
def construct (m : Memory) : State := { State.reset with mem := m }

/-- The state the next step fetches from: `s` itself, or, if `s` would not fetch (it has stopped, or its `pc` is
the sentinel), a fresh engine bound to the same memory, which is the only way out (R84). Assumption log 7. -/
def readyToFetch (s : State) : State :=
  if s.run = .running ∧ s.pc ≠ Config.haltSentinel then s else construct s.mem

/-- R97: the host places a Word at `Code[pc]`, where the next step fetches. -/
def placeAtPc (w : Word) (s : State) : State :=
  match storageIndex s.pc with
  | some i => { s with mem := memWrite s.mem .code i w }
  | none => s

/-- R61: the data-index check, then the instruction's effect at a valid index. `word` is the instruction's
Word, which the fault record names (assumption log 5). -/
def withDataIndex (word : Word) (n : Address) (s : State) (effect : Index → State) : Result :=
  match storageIndex n with
  | some i => .next (effect i)
  | none => .next (raiseFault .invalidDataIndex word s)

/-- R77: a reserved opcode, under the policy of rule R6. -/
def reservedOperation (policy : Config.ReservedOpcodePolicy) (s : State) : Result :=
  match policy with
  | .nop => .next (advance s)
  | .refuse => .refused .reservedOpcode

/-- R78: the numbers of the cause codes. -/
def FaultCause.code : FaultCause → Nat
  | .invalidDataIndex => 1
  | .invariantViolation => 2

end Sys2Proof.Machine
end

