-- ==== Sys2Proof/Machine/Arithmetic.lean ====
section
/-! DEFINITION. `add` and `sub`, saturating (43_arithmetic.md R71, R72). -/

namespace Sys2Proof.Machine

/-- R71: `acc <- sat8(u(acc) + u(Data[n]))`. -/
def execAdd (n : Address) (s : State) : Result :=
  withDataIndex (encodeWord (.add n)) n s fun i =>
    advance (setAcc (Kernel.sat8 (Kernel.toUnsigned s.acc + Kernel.toUnsigned (dataOperand s i))) s)

/-- R72: `acc <- sat8(u(acc) - u(Data[n]))`. -/
def execSub (n : Address) (s : State) : Result :=
  withDataIndex (encodeWord (.sub n)) n s fun i =>
    advance (setAcc (Kernel.sat8 (Kernel.toUnsigned s.acc - Kernel.toUnsigned (dataOperand s i))) s)

end Sys2Proof.Machine
end

