-- ==== Sys2Proof/Machine/Flags.lean ====
section
/-! DEFINITION. The core has no flag register (10_state.md R13). What a condition of this core is: a test of
the accumulator itself, made when the jump executes. -/

namespace Sys2Proof.Machine

/-- R74: the condition of `jumpIfMax`. -/
def accIsMax (s : State) : Bool := Kernel.toUnsigned s.acc = 255

/-- R75: the condition of `jumpIfMin`. -/
def accIsMin (s : State) : Bool := Kernel.toUnsigned s.acc = 0

end Sys2Proof.Machine
end

