-- ==== Sys2Proof/Machine/Control.lean ====
section
/-! DEFINITION. `jump`, `jumpIfMax` and `jumpIfMin` (44_control.md R73 to R75). Every target 0..15 is legal;
15 halts at the next step. -/

namespace Sys2Proof.Machine

/-- R73. -/
def execJump (t : Address) (s : State) : Result := .next (retire true t s)

/-- R74. -/
def execJumpIfMax (t : Address) (s : State) : Result := .next (retire (accIsMax s) t s)

/-- R75. -/
def execJumpIfMin (t : Address) (s : State) : Result := .next (retire (accIsMin s) t s)

end Sys2Proof.Machine
end

