-- ==== Sys2Proof/Machine/DataTransfer.lean ====
section
/-! DEFINITION. `read` and `write` (42_data_transfer.md R69, R70). -/

namespace Sys2Proof.Machine

/-- R69: `acc <- Data[n]`. -/
def execRead (n : Address) (s : State) : Result :=
  withDataIndex (encodeWord (.read n)) n s fun i => advance (setAcc (dataOperand s i) s)

/-- R70: `Data[n] <- acc`. -/
def execWrite (n : Address) (s : State) : Result :=
  withDataIndex (encodeWord (.write n)) n s fun i => advance (storeData i s.acc s)

end Sys2Proof.Machine
end

