-- ==== Sys2Proof/Machine/Reserved.lean ====
section
/-! DEFINITION. The reserved opcodes 8 to 15 (46_reserved.md R77): no operation under the spec's policy
`nop` (assumption log 2). -/

namespace Sys2Proof.Machine

/-- R77: opcode 8. -/
def execReserved8 (_ : Nibble) (s : State) : Result := reservedOperation Config.reservedOpcodePolicy s

/-- R77: opcode 9. -/
def execReserved9 (_ : Nibble) (s : State) : Result := reservedOperation Config.reservedOpcodePolicy s

/-- R77: opcode 10. -/
def execReserved10 (_ : Nibble) (s : State) : Result := reservedOperation Config.reservedOpcodePolicy s

/-- R77: opcode 11. -/
def execReserved11 (_ : Nibble) (s : State) : Result := reservedOperation Config.reservedOpcodePolicy s

/-- R77: opcode 12. -/
def execReserved12 (_ : Nibble) (s : State) : Result := reservedOperation Config.reservedOpcodePolicy s

/-- R77: opcode 13. -/
def execReserved13 (_ : Nibble) (s : State) : Result := reservedOperation Config.reservedOpcodePolicy s

/-- R77: opcode 14. -/
def execReserved14 (_ : Nibble) (s : State) : Result := reservedOperation Config.reservedOpcodePolicy s

/-- R77: opcode 15. -/
def execReserved15 (_ : Nibble) (s : State) : Result := reservedOperation Config.reservedOpcodePolicy s

end Sys2Proof.Machine
end

