-- ==== Sys2Proof/Machine/Shift.lean ====
section
/-! DEFINITION. `shiftRight` (45_shift.md R76). -/

namespace Sys2Proof.Machine

/-- R76: `acc <- shr1(acc)`; the operand is ignored. -/
def execShiftRight (_ : Nibble) (s : State) : Result := .next (advance (setAcc (Kernel.shr1 s.acc) s))

end Sys2Proof.Machine
end

