-- ==== Sys2Proof/Machine/Dispatch.lean ====
section
/-! DEFINITION. One arm per instruction (41_step_cycle.md R62): the execute phase, the data-index check, the
program-counter advance and the cycle count of a Word already fetched. -/

namespace Sys2Proof.Machine

def exec (i : Instr) (s : State) : Host.Outcome State Fault Refusal :=
  match i with
  | .read n => Sys2Proof.Machine.execRead n s
  | .write n => Sys2Proof.Machine.execWrite n s
  | .add n => Sys2Proof.Machine.execAdd n s
  | .sub n => Sys2Proof.Machine.execSub n s
  | .jump t => Sys2Proof.Machine.execJump t s
  | .jumpIfMax t => Sys2Proof.Machine.execJumpIfMax t s
  | .jumpIfMin t => Sys2Proof.Machine.execJumpIfMin t s
  | .shiftRight x => Sys2Proof.Machine.execShiftRight x s
  | .reserved8 x => Sys2Proof.Machine.execReserved8 x s
  | .reserved9 x => Sys2Proof.Machine.execReserved9 x s
  | .reserved10 x => Sys2Proof.Machine.execReserved10 x s
  | .reserved11 x => Sys2Proof.Machine.execReserved11 x s
  | .reserved12 x => Sys2Proof.Machine.execReserved12 x s
  | .reserved13 x => Sys2Proof.Machine.execReserved13 x s
  | .reserved14 x => Sys2Proof.Machine.execReserved14 x s
  | .reserved15 x => Sys2Proof.Machine.execReserved15 x s

end Sys2Proof.Machine
end

