-- ==== Sys2Proof/Machine/Step.lean ====
section
/-! DEFINITION. The step (41_step_cycle.md R57): the order of its checks (60_exceptions.md R83), the fetch, the
decode and the execution. What `step()` returns to the host is `stepReturns` (Machine/HostPort.lean). -/

namespace Sys2Proof.Machine

/-- R57: one call of `step()`. A stopped engine changes nothing (R67); `pc = 15` halts before any fetch
(R58); otherwise the Word at `Code[pc]` is fetched (R59), decoded (R60) and executed (R61 to R64). -/
def step (s : State) : Host.Outcome State Fault Refusal :=
  if stopped s then .next s
  else
    match fetch s with
    | none => .next (enterHalted s)
    | some w => exec (decodeWord w) (recordFetch w s)

/-- `s` with the instruction Word `w` where the next step fetches: at `Code[pc]`. An engine that would not
fetch (it has stopped, or `pc` is the sentinel) is first constructed anew, bound to the memory it had
(`readyToFetch`). It stands for the host's load of a program (R97, assumption log 7). -/
def State.withFetchWord (s : State) (nbits w : Nat) : State :=
  placeAtPc (tableWord nbits w) (readyToFetch s)

end Sys2Proof.Machine
end

