-- ==== Sys2Proof/WellFormed.lean ====
section
/-! DEFINITION. Which terms of the syntax are well formed. An instruction always is: its operand is a
nibble and every one of the 256 Words is some instruction (R43, R44), so a check on `Instr` would refuse
nothing. Raw host requests and assembler items carry plain numbers, and these are checked. -/

namespace Sys2Proof

/-- R43, R44, R60: no instruction is illegal, so every term of `Instr` is well formed. -/
def Instr.wf (_ : Instr) : Bool := true

/-- R24, R79: the indices of a request lie in 0..14 and its bit index in 0..7. -/
def RawRequest.wf : RawRequest → Bool
  | .readWord _ i => i < 15
  | .writeWord _ i _ => i < 15
  | .readBit _ i k => i < 15 && k < 8
  | .writeBit _ i k _ => i < 15 && k < 8

/-- R46: a decimal operand lies in 0..15. A label is resolved, and then checked, by the assembler. -/
def AsmOperand.wf : AsmOperand → Bool
  | .num n => n < 16
  | .label _ => true

/-- R46: an operand is required for every mnemonic except `shiftRight`; a `.word` value lies in 0..255. -/
def AsmItem.wf : AsmItem → Bool
  | .instr m none => m == .shiftRight
  | .instr _ (some o) => o.wf
  | .halt => true
  | .word v => v < 256

/-- R46: a line is well formed if what it places is. -/
def AsmLine.wf (l : AsmLine) : Bool :=
  match l.item with
  | none => true
  | some item => item.wf

end Sys2Proof
end

