-- ==== Sys2Proof/Machine/Assembler.lean ====
section
/-! DEFINITION. The assembler (30_encoding.md R46, R47) over source lines already read. It has no effect on
the machine; it says which Words a listing stands for. Assumption log 12. -/

namespace Sys2Proof.Machine

/-- R46: the instruction a mnemonic and an operand stand for. -/
def mnemonicInstr (m : Mnemonic) (operand : Nibble) : Instr :=
  match m with
  | .read => .read operand
  | .write => .write operand
  | .add => .add operand
  | .sub => .sub operand
  | .jump => .jump operand
  | .jumpIfMax => .jumpIfMax operand
  | .jumpIfMin => .jumpIfMin operand
  | .shiftRight => .shiftRight operand

/-- The labels of a listing with the Code index each stands for: that of the next Word placed. -/
def labelTable (lines : List AsmLine) (index : Nat) : List (String × Nat) :=
  match lines with
  | [] => []
  | l :: rest =>
    let here := match l.label with
      | some name => [(name, index)]
      | none => []
    let next := match l.item with
      | some _ => index + 1
      | none => index
    here ++ labelTable rest next

/-- R46: "a label stands for its Code index". -/
def operandValue (labels : List (String × Nat)) (o : AsmOperand) : Option Nat :=
  match o with
  | .num n => some n
  | .label name => labels.lookup name

/-- The Word an item places; none if an operand is missing, undefined or out of range. -/
def assembleItem (labels : List (String × Nat)) (item : AsmItem) : Option Word :=
  match item with
  | .instr m none => if m = .shiftRight then some (encodeWord (.shiftRight 0)) else none
  | .instr m (some o) =>
    match operandValue labels o with
    | some n => if n < 16 then some (encodeWord (mnemonicInstr m (BitVec.ofNat 4 n))) else none
    | none => none
  | .halt => some (encodeWord (.jump Config.haltSentinel))
  | .word v => if v < 256 then some (BitVec.ofNat 8 v) else none

/-- The Words of a listing under a label table. -/
def assembleLines (labels : List (String × Nat)) (lines : List AsmLine) : Option (List Word) :=
  match lines with
  | [] => some []
  | l :: rest =>
    match l.item with
    | none => assembleLines labels rest
    | some item =>
      match assembleItem labels item, assembleLines labels rest with
      | some w, some ws => some (w :: ws)
      | _, _ => none

/-- R46: assemble a listing; a label given twice is refused. -/
def assemble (lines : List AsmLine) : Option (List Word) :=
  let labels := labelTable lines 0
  if (labels.map Prod.fst).Nodup then assembleLines labels lines else none

end Sys2Proof.Machine
end

