-- ==== Sys2Proof/Machine/Image.lean ====
section
/-! DEFINITION. The persisted image (20_memory.md R39), a contract of the host's: lines of glyphs that stand
for the Words of Code and then of Data. How a comment line is recognised is not in the source, so the lines
here are those that are not ignored. Assumption log 13. -/

namespace Sys2Proof.Machine

/-- R39: `*` denotes bit-true and any other character bit-false. -/
def glyphBit (c : Char) : Bool := c = '*'

/-- R39: the Word a line stands for: exactly eight characters, the first the most significant bit. -/
def glyphWord (line : List Char) : Option Word :=
  match line with
  | [a, b, c, d, e, f, g, h] =>
    some (BitVec.ofBoolListBE [glyphBit a, glyphBit b, glyphBit c, glyphBit d, glyphBit e, glyphBit f, glyphBit g, glyphBit h])
  | _ => none

/-- R39: load an image: the first 15 lines fill Code and the next 15 Data, and further lines are ignored. A
line among these that is not exactly eight characters is refused. -/
def loadImage (lines : List (List Char)) (unreached : Memory) : Option Memory :=
  ((lines.take 30).mapM glyphWord).map fun ws => bulkLoad ws unreached

end Sys2Proof.Machine
end

