-- ==== Sys2Proof/Machine/HostPort.lean ====
section
/-! DEFINITION. What the host does to the core between steps (60_exceptions.md R93, 10_state.md R19,
20_memory.md R36 to R38), and the raw forms that rule R79 refuses. The host has no move inside a step (R40,
assumption log 6). -/

namespace Sys2Proof.Machine

/-- R57, R65: the continuation signal that `step()` returns when it is called in `s`. A stopped engine, the
halting step and the faulting step return false; an executed step returns whether the new `pc` is not the
sentinel. Assumption log 4. -/
def stepReturns (s : State) : Bool :=
  if stopped s then false
  else
    match fetch s, step s with
    | some _, .next t => t.run ≠ .faulted && t.pc ≠ Config.haltSentinel
    | _, _ => false

/-- R19: the accessor `currentOpcode`, none before any fetch. -/
def currentOpcode (s : State) : Option Nibble := s.ir.map fun w => (Kernel.splitNibbles w).1

/-- R19: the accessor `currentOperand`, none before any fetch. -/
def currentOperand (s : State) : Option Nibble := s.ir.map fun w => (Kernel.splitNibbles w).2

/-- R93: the interactions of the host with the core. -/
inductive HostAction where
  /-- reset: construct a fresh engine bound to a Memory -/
  | construct (memory : Memory)
  | step
  | getAcc
  | getPc
  | getCycle
  | getCurrentOpcode
  | getCurrentOperand
  | getRunState
  | getFaultRecord
  | readWord (space : Space) (i : Index)
  | readBit (space : Space) (i : Index) (k : BitIndex)
  | bulkDump
  | writeWord (space : Space) (i : Index) (w : Word)
  | writeBit (space : Space) (i : Index) (k : BitIndex) (b : Bool)
  /-- the Words, and the unspecified contents of the Words they do not reach (D9) -/
  | bulkLoad (ws : List Word) (unreached : Memory)
  /-- the host stops calling `step()`; nothing happens -/
  | stop
deriving DecidableEq, Repr

/-- The memories an action carries are in canonical form. -/
abbrev HostAction.wf (a : HostAction) : Prop :=
  match a with
  | .construct m => m.wf
  | .bulkLoad _ m => m.wf
  | _ => True

/-- R93: what the core returns. -/
inductive HostReply where
  | nothing
  | signal (b : Bool)
  | word (w : Word)
  | address (a : Address)
  | count (n : Nat)
  | nibble (n : Option Nibble)
  | runState (r : RunState)
  | faultRecord (f : Option FaultRecord)
  | bit (b : Bool)
  | words (ws : List Word)
deriving DecidableEq, Repr

/-- What the core answers to the host: the state after the action, and the reply. -/
abbrev HostResult := Host.Outcome (State × HostReply) Fault Refusal

/-- R93: one interaction. -/
def hostAct (a : HostAction) (s : State) : HostResult :=
  match a with
  | .construct m => .next (construct m, .nothing)
  | .step =>
    match step s with
    | .next t => .next (t, .signal (stepReturns s))
    | .fault r => .fault r
    | .refused r => .refused r
  | .getAcc => .next (s, .word s.acc)
  | .getPc => .next (s, .address s.pc)
  | .getCycle => .next (s, .count s.cycle)
  | .getCurrentOpcode => .next (s, .nibble (currentOpcode s))
  | .getCurrentOperand => .next (s, .nibble (currentOperand s))
  | .getRunState => .next (s, .runState s.run)
  | .getFaultRecord => .next (s, .faultRecord s.fault)
  | .readWord space i => .next (s, .word (memRead s.mem space i))
  | .readBit space i k => .next (s, .bit (memReadBit s.mem space i k))
  | .bulkDump => .next (s, .words (bulkDump s.mem))
  | .writeWord space i w => .next ({ s with mem := memWrite s.mem space i w }, .nothing)
  | .writeBit space i k b => .next ({ s with mem := memWriteBit s.mem space i k b }, .nothing)
  | .bulkLoad ws unreached => .next ({ s with mem := bulkLoad ws unreached }, .nothing)
  | .stop => .next (s, .nothing)

/-- A raw number as an index of `n` values, if it is one. -/
def rawIndex (n k : Nat) : Option (Fin n) := if h : k < n then some ⟨k, h⟩ else none

/-- R79: the typed action a raw request stands for, if its indices are in range. -/
def typedRequest (r : RawRequest) : Option HostAction :=
  match r with
  | .readWord space i => (rawIndex 15 i).map fun i => .readWord space i
  | .writeWord space i w => (rawIndex 15 i).map fun i => .writeWord space i w
  | .readBit space i k => (rawIndex 15 i).bind fun i => (rawIndex 8 k).map fun k => .readBit space i k
  | .writeBit space i k b =>
    (rawIndex 15 i).bind fun i => (rawIndex 8 k).map fun k => .writeBit space i k b

/-- R79: an out-of-range request is refused, not taken; any other is the typed action. -/
def hostRequest (r : RawRequest) (s : State) : HostResult :=
  match typedRequest r with
  | some a => hostAct a s
  | none => .refused .invariantViolation

/-- R53, R79: a two-operand kernel function on bit sequences whose lengths are known at run time only, the
most significant bit first. Different lengths are refused. -/
def bitwiseRaw (f : Bool → Bool → Bool) (a b : List Bool) : Host.Outcome (List Bool) Fault Refusal :=
  if a.length = b.length then .next (a.zipWith f b) else .refused .invalidOperand

/-- R53. -/
def bitwiseAndRaw (a b : List Bool) : Host.Outcome (List Bool) Fault Refusal := bitwiseRaw (· && ·) a b

/-- R53. -/
def bitwiseOrRaw (a b : List Bool) : Host.Outcome (List Bool) Fault Refusal := bitwiseRaw (· || ·) a b

/-- R53. -/
def bitwiseXorRaw (a b : List Bool) : Host.Outcome (List Bool) Fault Refusal := bitwiseRaw xor a b

end Sys2Proof.Machine
end

