-- ==== Sys2Proof/Safety.lean ====
section
/-! DEFINITION. The terms claims use: the invariant of a state, what a frame says, the faulting Words, the ends
of a run, and rule R57's procedure written as the spec writes it. -/

namespace Sys2Proof.Machine

/-- R44, R78: the Words whose execution faults. -/
def faultingWord (w : Word) : Bool := [0x0F#8, 0x1F#8, 0x2F#8, 0x3F#8].contains w

/-- The invariant of a state: memory is canonical; a record stands exactly in `Faulted` (R17, R80, R81); a
halted engine stands at the sentinel (R58); the record is precise (R78, R80); an engine that has fetched
nothing is fresh (R16, R20). -/
structure State.Inv (s : State) : Prop where
  memory_canonical : s.mem.wf
  record_iff_faulted : s.fault.isSome ↔ s.run = .faulted
  halted_at_sentinel : s.run = .halted → s.pc = Config.haltSentinel
  record_precise : ∀ r ∈ s.fault, r.cause = .invalidDataIndex ∧ r.pc = s.pc ∧ s.ir = some r.word ∧
    faultingWord r.word = true ∧ s.pc ≠ Config.haltSentinel
  unfetched_fresh : s.ir = none → s.acc = 0 ∧ s.pc = 0 ∧ s.cycle = 0 ∧ s.run = .running

/-- The run state, the current-instruction register and the fault record are as before. -/
abbrev sameStatus (s t : State) : Prop := t.run = s.run ∧ t.ir = s.ir ∧ t.fault = s.fault

/-- Every Word of Code and Data reads as before. -/
abbrev sameMemory (s t : State) : Prop := ∀ space i, memRead t.mem space i = memRead s.mem space i

/-- Every Word but one reads as before. -/
abbrev sameMemoryBut (space : Space) (i : Index) (s t : State) : Prop :=
  ∀ space' j, (space' ≠ space ∨ j ≠ i) → memRead t.mem space' j = memRead s.mem space' j

/-- R63, R64: `pc` is one further, modulo 16, and `cycle` has risen by one. -/
abbrev advanced (s t : State) : Prop := t.pc.toNat = (s.pc.toNat + 1) % 16 ∧ t.cycle = s.cycle + 1

/-- R10: the six elements of the engine's state are as before. -/
abbrev sameEngine (s t : State) : Prop :=
  t.acc = s.acc ∧ t.pc = s.pc ∧ t.cycle = s.cycle ∧ t.run = s.run ∧ t.ir = s.ir ∧ t.fault = s.fault

/-- R80: `t` is `s` after fault entry for the Word `w`. -/
abbrev faultEntered (w : Word) (s t : State) : Prop :=
  t.fault = some { cause := .invalidDataIndex, pc := s.pc, word := w } ∧ t.run = .faulted ∧
  t.acc = s.acc ∧ t.pc = s.pc ∧ t.cycle = s.cycle ∧ t.ir = s.ir ∧ sameMemory s t

/-- The next step fetches the Word `w`: the engine runs and `pc` names the Code Word `w` (R58, R59). -/
abbrev fetches (s : State) (w : Word) : Prop :=
  s.run = .running ∧ ∃ i : Index, i.val = s.pc.toNat ∧ memRead s.mem .code i = w

/-- R94 (a), (b): normal termination. -/
abbrev State.endedNormally (s : State) : Prop :=
  (s.run = .running ∧ s.pc = Config.haltSentinel) ∨ s.run = .halted

/-- R94 (c): the run ended in a fault. -/
abbrev State.endedInFault (s : State) : Prop := s.run = .faulted

/-- R57, the execute phase of the listing for one opcode number and operand: the state after it, and `taken`. -/
def listedExecute (opcode operand : Nat) (s : State) : State × Bool :=
  let d := Cells.read s.mem.data operand
  match opcode with
  | 0 => ({ s with acc := d }, false)
  | 1 => ({ s with mem := { s.mem with data := Cells.write s.mem.data operand s.acc } }, false)
  | 2 => ({ s with acc := BitVec.ofNat 8 (min (s.acc.toNat + d.toNat) 255) }, false)
  | 3 => ({ s with acc := BitVec.ofNat 8 (s.acc.toNat - d.toNat) }, false)
  | 4 => (s, true)
  | 5 => (s, s.acc.toNat = 255)
  | 6 => (s, s.acc.toNat = 0)
  | 7 => ({ s with acc := BitVec.ofNat 8 (s.acc.toNat / 2) }, false)
  | _ => (s, false)

/-- R57, the whole listing: the state after one call of `step()`, and what it returns. Fields and arithmetic
are in numbers here; `step` is built from the kernel, the decoder and the meanings. -/
def listedStep (s : State) : State × Bool :=
  if s.run ≠ .running then (s, false)
  else if s.pc.toNat = 15 then ({ s with run := .halted }, false)
  else
    let w := Cells.read s.mem.code s.pc.toNat
    let fetched := { s with ir := some w }
    let opcode := w.toNat / 16
    let operand := w.toNat % 16
    if opcode ∈ [0, 1, 2, 3] ∧ operand = 15 then
      ({ fetched with fault := some { cause := .invalidDataIndex, pc := s.pc, word := w }, run := .faulted }, false)
    else
      let (executed, taken) := listedExecute opcode operand fetched
      let pc := if taken then BitVec.ofNat 4 operand else BitVec.ofNat 4 ((s.pc.toNat + 1) % 16)
      ({ executed with pc := pc, cycle := s.cycle + 1 }, pc.toNat ≠ 15)

end Sys2Proof.Machine
end

