-- ==== Sys2Proof/Certificates/Slice0/Obligations.lean ====
section
/-! DEFINITION. The statements for the provers: what the numbered rules of spec/ say the core does. Where a
statement is of an instruction's result, its conclusion is that `exec` answers a next state. -/

open Sys2Proof Sys2Proof.Machine

/-! ### Encoding (30_encoding.md) -/

/-- R41, R43, R45: every instruction is read back from its encoding with every operand, whatever follows it,
and what was decoded is what stood there. Every term of `Instr` is well formed (`Instr.wf`). -/
def Obligations.DecodeInvertsEncode : Prop :=
  (∀ (i : Instr) (rest : List Word), decode (encode i ++ rest) = .ok (i, rest)) ∧
  ∀ (words rest : List Word) (i : Instr), decode words = .ok (i, rest) → words = encode i ++ rest

/-- R60: the opcode is the high nibble, the operand the low one, and decode never fails. -/
def Obligations.EveryWordDecodesByItsNibbles : Prop :=
  ∀ (w : Word) (rest : List Word), ∃ i, decode (w :: rest) = .ok (i, rest) ∧
    Kernel.splitNibbles w = (opcodeOf i, operandOf i) ∧
    opcodeOf i = w.extractLsb' 4 4 ∧ operandOf i = w.extractLsb' 0 4

/-- R41: one format, one Word, `opcode * 16 + operand`. -/
def Obligations.EncodedWordIsOpcodeThenOperand : Prop :=
  ∀ i : Instr, encode i = [encodeWord i] ∧
    (encodeWord i).toNat = (opcodeOf i).toNat * 16 + (operandOf i).toNat ∧
    Kernel.splitNibbles (encodeWord i) = (opcodeOf i, operandOf i) ∧
    (encodeWord i).extractLsb' 4 4 = opcodeOf i ∧ (encodeWord i).extractLsb' 0 4 = operandOf i

/-- R43: which row each opcode value selects, at every operand; and "All 256 Words decode to exactly one row":
among the table's rows the mask and value select one, and it is the decoded instruction's. -/
def Obligations.OpcodeMapSelectsTheRow : Prop :=
  (∀ w : Word, (opcodeTable.filter fun r => w &&& r.mask = r.value).map OpcodeRow.mnemonic =
    [mnemonicOf (decodeWord w)]) ∧
  ∀ x : Nibble,
    decodeWord (0b0000#4 ++ x) = .read x ∧ decodeWord (0b0001#4 ++ x) = .write x ∧
    decodeWord (0b0010#4 ++ x) = .add x ∧ decodeWord (0b0011#4 ++ x) = .sub x ∧
    decodeWord (0b0100#4 ++ x) = .jump x ∧ decodeWord (0b0101#4 ++ x) = .jumpIfMax x ∧
    decodeWord (0b0110#4 ++ x) = .jumpIfMin x ∧ decodeWord (0b0111#4 ++ x) = .shiftRight x ∧
    decodeWord (0b1000#4 ++ x) = .reserved8 x ∧ decodeWord (0b1001#4 ++ x) = .reserved9 x ∧
    decodeWord (0b1010#4 ++ x) = .reserved10 x ∧ decodeWord (0b1011#4 ++ x) = .reserved11 x ∧
    decodeWord (0b1100#4 ++ x) = .reserved12 x ∧ decodeWord (0b1101#4 ++ x) = .reserved13 x ∧
    decodeWord (0b1110#4 ++ x) = .reserved14 x ∧ decodeWord (0b1111#4 ++ x) = .reserved15 x

/-- R43, R47, R73, R69: Words written out from the encodings decode to their instructions. -/
def Obligations.WordsWrittenOutDecode : Prop :=
  decode [0b00000011#8] = .ok (.read 3, []) ∧ decode [0b00011110#8] = .ok (.write 14, []) ∧
  decode [0b00100000#8] = .ok (.add 0, []) ∧ decode [0b00110001#8] = .ok (.sub 1, []) ∧
  decode [0b01001111#8] = .ok (.jump 15, []) ∧ decode [0b01010111#8] = .ok (.jumpIfMax 7, []) ∧
  decode [0b01101010#8] = .ok (.jumpIfMin 10, []) ∧ decode [0b01110101#8] = .ok (.shiftRight 5, []) ∧
  decode [0b10001111#8] = .ok (.reserved8 15, []) ∧ decode [0b11111111#8] = .ok (.reserved15 15, [])

/-- R46, R47: the assembler's Word for a mnemonic with a decimal operand, for `shiftRight` without one, and for
`halt`; an operand above 15 and a missing one are refused (log 12 names the model's own choices). -/
def Obligations.AssemblerEncodesMnemonics : Prop :=
  (∀ (m : Mnemonic) (n : Nat), n < 16 →
    ∃ w, assemble [⟨none, some (.instr m (some (.num n)))⟩] = some [w] ∧
      w.toNat = (opcodeOf (mnemonicInstr m 0)).toNat * 16 + n ∧
      decode [w] = .ok (mnemonicInstr m (BitVec.ofNat 4 n), [])) ∧
  (∀ (m : Mnemonic) (n : Nat), 16 ≤ n → assemble [⟨none, some (.instr m (some (.num n)))⟩] = none) ∧
  (∀ m : Mnemonic, m ≠ .shiftRight → assemble [⟨none, some (.instr m none)⟩] = none) ∧
  assemble [⟨none, some (.instr .shiftRight none)⟩] = some [0x70#8] ∧
  assemble [⟨none, some .halt⟩] = some [0x4F#8]

/-! ### The kernel (40_alu.md) -/

/-- R48: the standard unsigned value, the sum of `2 ^ i` over the bits set, between 0 and `2 ^ L - 1`. -/
def Obligations.ToUnsignedIsTheSumOfBits : Prop :=
  ∀ (L : Nat) (v : BitVec L),
    Kernel.toUnsigned v = ∑ i : Fin L, (if v.getLsbD i.val then 2 ^ i.val else 0 : Int) ∧
    0 ≤ Kernel.toUnsigned v ∧ Kernel.toUnsigned v ≤ 2 ^ L - 1

/-- R49: all zeros from 0 down, all ones from `2 ^ L - 1` up, and a round trip in between. -/
def Obligations.FromUnsignedSaturates : Prop :=
  ∀ (x : Int) (L : Nat),
    (x ≤ 0 → Kernel.fromUnsignedSaturating x L = BitVec.zero L) ∧
    (2 ^ L - 1 ≤ x → Kernel.fromUnsignedSaturating x L = BitVec.allOnes L) ∧
    (0 ≤ x ∧ x ≤ 2 ^ L - 1 → Kernel.toUnsigned (Kernel.fromUnsignedSaturating x L) = x)

/-- R50: `sat8` is the 8-bit saturating encoding, in closed form `min (max x 0) 255`. -/
def Obligations.Sat8Clamps : Prop :=
  ∀ x : Int, Kernel.sat8 x = Kernel.fromUnsignedSaturating x 8 ∧
    Kernel.toUnsigned (Kernel.sat8 x) = min (max x 0) 255

/-- R51: the first nibble is the high one, and the Word is 16 times it plus the low one. -/
def Obligations.SplitNibblesHighFirst : Prop :=
  ∀ w : Word, Kernel.splitNibbles w = (w.extractLsb' 4 4, w.extractLsb' 0 4) ∧
    Kernel.toUnsigned w =
      16 * Kernel.toUnsigned (Kernel.splitNibbles w).1 + Kernel.toUnsigned (Kernel.splitNibbles w).2

/-- R52: a sign bit and a three-bit magnitude; flipping the sign bit negates; two zeros. -/
def Obligations.SignedNibbleIsSignAndMagnitude : Prop :=
  ∀ n : Nibble,
    Kernel.decodeSignedNibble n = (if n.toNat < 8 then (n.toNat : Int) else -((n.toNat : Int) - 8)) ∧
    Kernel.decodeSignedNibble (n ^^^ 0b1000#4) = -Kernel.decodeSignedNibble n ∧
    -7 ≤ Kernel.decodeSignedNibble n ∧ Kernel.decodeSignedNibble n ≤ 7 ∧
    (n.toNat % 8 ≠ 0 → Kernel.decodeSignedNibble (n ^^^ 0b1000#4) ≠ Kernel.decodeSignedNibble n)

/-- R53, R54: the logical operations are elementwise, and the run-time-length forms refuse unequal lengths. -/
def Obligations.LogicIsElementwise : Prop :=
  (∀ (L : Nat) (a b : BitVec L) (i : Nat), i < L →
    (Kernel.bitwiseAnd a b).getLsbD i = (a.getLsbD i && b.getLsbD i) ∧
    (Kernel.bitwiseOr a b).getLsbD i = (a.getLsbD i || b.getLsbD i) ∧
    (Kernel.bitwiseXor a b).getLsbD i = (xor (a.getLsbD i) (b.getLsbD i)) ∧
    (Kernel.bitwiseNot a).getLsbD i = !(a.getLsbD i)) ∧
  ∀ a b : List Bool, a.length ≠ b.length →
    bitwiseAndRaw a b = .refused .invalidOperand ∧ bitwiseOrRaw a b = .refused .invalidOperand ∧
    bitwiseXorRaw a b = .refused .invalidOperand

/-- R55: each bit moves one place down, a zero enters at the top, and the value is halved. -/
def Obligations.Shr1HalvesAndFillsWithZero : Prop :=
  ∀ w : Word, (Kernel.shr1 w).getLsbD 7 = false ∧
    (∀ i, i < 7 → (Kernel.shr1 w).getLsbD i = w.getLsbD (i + 1)) ∧
    (Kernel.shr1 w).toNat = w.toNat / 2

/-! ### Memory (20_memory.md) -/

/-- R21, R23, R27: a read gives the latest write to that index of that space, and no other Word changes. -/
def Obligations.ReadAfterWriteInEitherSpace : Prop :=
  ∀ (m : Memory) (space : Space) (i : Index) (w : Word) (space' : Space) (j : Index),
    memRead (memWrite m space i w) space' j =
      if space' = space ∧ j = i then w else memRead m space' j

/-- The model's own representation (log 10): canonical memories with equal contents are equal data. -/
def Obligations.CanonicalMemoriesAreTheirContents : Prop :=
  ∀ m n : Memory, m.wf → n.wf → (∀ space i, memRead m space i = memRead n space i) → m = n

/-- The model's own representation (log 10): every memory operation keeps the canonical form. -/
def Obligations.MemoryOperationsKeepTheForm : Prop :=
  ∀ m : Memory, m.wf →
    (∀ space i w, (memWrite m space i w).wf) ∧
    (∀ space i k b, (memWriteBit m space i k b).wf) ∧
    (∀ ws, (bulkLoad ws m).wf) ∧
    (∀ lines n, loadImage lines m = some n → n.wf)

/-- R36: the four operations of the host port; bit index 0 is the most significant bit. -/
def Obligations.HostPortReadsAndWritesWordsAndBits : Prop :=
  ∀ (s : State) (space : Space) (i : Index) (k : BitIndex),
    hostAct (.readWord space i) s = .next (s, .word (memRead s.mem space i)) ∧
    hostAct (.readBit space i k) s = .next (s, .bit ((memRead s.mem space i).getLsbD (7 - k.val))) ∧
    (∀ w, ∃ t, hostAct (.writeWord space i w) s = .next (t, .nothing) ∧ sameEngine s t ∧
      memRead t.mem space i = w ∧ sameMemoryBut space i s t) ∧
    (∀ b, ∃ t, hostAct (.writeBit space i k b) s = .next (t, .nothing) ∧ sameEngine s t ∧
      sameMemoryBut space i s t ∧
      ∀ k' : BitIndex, (memRead t.mem space i).getLsbD (7 - k'.val) =
        if k' = k then b else (memRead s.mem space i).getLsbD (7 - k'.val))

/-- R37: Code first, then Data, in order; the excess is ignored; a Word the load does not reach is that of
`unreached`, about which nothing is assumed (D9, log 8). -/
def Obligations.BulkLoadFillsCodeThenData : Prop :=
  ∀ (ws : List Word) (unreached : Memory) (i : Index),
    memRead (bulkLoad ws unreached) .code i = ws.getD i.val (memRead unreached .code i) ∧
    memRead (bulkLoad ws unreached) .data i = ws.getD (15 + i.val) (memRead unreached .data i) ∧
    bulkLoad ws unreached = bulkLoad (ws.take 30) unreached

/-- R38: a dump is the 30 Words in order and changes nothing; loading it into any memory gives equal spaces. -/
def Obligations.DumpThenLoadReproducesMemory : Prop :=
  (∀ m : Memory, (bulkDump m).length = 30 ∧
    (∀ i : Index, (bulkDump m)[i.val]? = some (memRead m .code i) ∧
      (bulkDump m)[15 + i.val]? = some (memRead m .data i)) ∧
    ∀ fresh space i, memRead (bulkLoad (bulkDump m) fresh) space i = memRead m space i) ∧
  ∀ s : State, hostAct .bulkDump s = .next (s, .words (bulkDump s.mem))

/-- R79: a raw request whose indices are out of range is refused and not taken, one in range is taken; the
kernel refuses operands of different lengths; and no step is refused that way. -/
def Obligations.OutOfRangeRequestsAreRefused : Prop :=
  (∀ a b : List Bool, a.length ≠ b.length →
    bitwiseAndRaw a b = .refused .invalidOperand ∧ bitwiseOrRaw a b = .refused .invalidOperand ∧
    bitwiseXorRaw a b = .refused .invalidOperand) ∧
  ∀ (r : RawRequest) (s : State),
    (r.wf = false → hostRequest r s = .refused .invariantViolation) ∧
    (r.wf = true → ∃ t reply, hostRequest r s = .next (t, reply)) ∧
    FaultCause.invariantViolation.code = 2 ∧
    step s ≠ .refused .invariantViolation ∧ step s ≠ .refused .invalidOperand

/-! ### The step (41_step_cycle.md) -/

/-- R59, R60: from `Running` below the sentinel, `step` is `exec` of what `Code[pc]` decodes to, with the
fetched Word in `ir`. -/
def Obligations.StepRunsTheDecodedInstruction : Prop :=
  ∀ (s : State) (w : Word), fetches s w →
    ∃ i, decode [w] = .ok (i, []) ∧ step s = exec i { s with ir := some w }

/-- R58: at the sentinel the step halts, returns false and changes nothing else. -/
def Obligations.SentinelHaltsWithoutFetching : Prop :=
  ∀ s : State, s.run = .running → s.pc = 15#4 →
    step s = .next { s with run := .halted } ∧ stepReturns s = false

/-- R67: a step of a stopped engine returns false and changes nothing, however often it is taken. -/
def Obligations.StoppedEngineNeverChanges : Prop :=
  ∀ s : State, s.run ≠ .running →
    stepReturns s = false ∧ ∀ k, Host.Core.run Sys2Proof.core k s = .next s

/-- R57, R78: a step always answers a next state: nothing stops the core with a fault or a refusal. -/
def Obligations.EveryStepAnswersANextState : Prop :=
  ∀ s : State, ∃ t, step s = .next t

/-- R57: the step and what it returns are those of the spec's own listing. -/
def Obligations.StepIsTheListing : Prop :=
  ∀ s : State, step s = .next (listedStep s).1 ∧ stepReturns s = (listedStep s).2

/-- R65: the continuation signal. -/
def Obligations.ContinuationSignalLooksAhead : Prop :=
  ∀ s t : State, step s = .next t →
    (s.run = .running ∧ s.pc ≠ 15#4 ∧ t.run ≠ .faulted →
      t.run = .running ∧ (stepReturns s = true ↔ t.pc ≠ 15#4)) ∧
    (t.run ≠ .running → stepReturns s = false) ∧
    (stepReturns s = false ↔ t.run ≠ .running ∨ step t = .next { t with run := .halted })

/-- R63: a taken transfer sets `pc` to the operand; everything else that executes advances it by one. -/
def Obligations.PcAdvanceRule : Prop :=
  ∀ (s t : State) (w : Word), fetches s w → step s = .next t → t.run ≠ .faulted →
    let opcode := w.toNat / 16
    let taken := opcode = 4 ∨ (opcode = 5 ∧ s.acc.toNat = 255) ∨ (opcode = 6 ∧ s.acc.toNat = 0)
    (taken → t.pc.toNat = w.toNat % 16) ∧ (¬taken → t.pc.toNat = (s.pc.toNat + 1) % 16)

/-- R15, R64: the cycle count rises by one in a step that executes and in no other; over any run it never
falls and rises by at most the number of steps. -/
def Obligations.CycleCountsExecutedInstructions : Prop :=
  (∀ s t : State, step s = .next t →
    (s.run = .running ∧ s.pc ≠ 15#4 ∧ t.run ≠ .faulted → t.cycle = s.cycle + 1) ∧
    (s.run ≠ .running ∨ s.pc = 15#4 ∨ t.run = .faulted → t.cycle = s.cycle)) ∧
  ∀ (k : Nat) (s t : State), Host.Core.run Sys2Proof.core k s = .next t →
    s.cycle ≤ t.cycle ∧ t.cycle ≤ s.cycle + k

/-- R14, R20: the transitions of the run state, and its value after construction. -/
def Obligations.RunStateTransitions : Prop :=
  (∀ m : Memory, (construct m).run = .running) ∧
  ∀ s t : State, step s = .next t →
    (s.run ≠ .running → t.run = s.run) ∧
    (s.run = .running → s.pc = 15#4 → t.run = .halted) ∧
    (∀ w, fetches s w → t.run = if faultingWord w then .faulted else .running)

/-- R16: every step that fetches writes `ir`, a fault included; no other step does; the accessors show its
nibbles, and none before any fetch. -/
def Obligations.IrHoldsTheLastFetchedWord : Prop :=
  (∀ s t : State, step s = .next t →
    (∀ w, fetches s w → t.ir = some w ∧ currentOpcode t = some (w.extractLsb' 4 4) ∧
      currentOperand t = some (w.extractLsb' 0 4)) ∧
    (s.run ≠ .running ∨ s.pc = 15#4 → t.ir = s.ir)) ∧
  ∀ m : Memory, (construct m).ir = none ∧ currentOpcode (construct m) = none ∧
    currentOperand (construct m) = none

/-- R15, R16, R17: no instruction reads `cycle`, `ir` or `fault`: a step from a state that differs in these
alone gives a state that differs in these alone. -/
def Obligations.CycleIrAndFaultAreNeverRead : Prop :=
  ∀ (s t : State) (cycle : Nat) (ir : Option Word) (fault : Option FaultRecord), step s = .next t →
    ∃ u, step { s with cycle := cycle, ir := ir, fault := fault } = .next u ∧
      u.acc = t.acc ∧ u.pc = t.pc ∧ u.run = t.run ∧ u.mem = t.mem ∧
      stepReturns { s with cycle := cycle, ir := ir, fault := fault } = stepReturns s

/-- R22, R34: the core never writes Code. -/
def Obligations.CoreNeverWritesCode : Prop :=
  ∀ s t : State, step s = .next t → ∀ i, memRead t.mem .code i = memRead s.mem .code i

/-- R22: only `write` changes Data, only the Word its operand names, and to the accumulator. -/
def Obligations.OnlyWriteChangesData : Prop :=
  ∀ (s t : State) (i : Index), step s = .next t → memRead t.mem .data i ≠ memRead s.mem .data i →
    ∃ w, fetches s w ∧ w.toNat = 0x10 + i.val ∧ memRead t.mem .data i = s.acc

/-- R11: only `read`, `add`, `sub` and `shiftRight` write the accumulator. -/
def Obligations.OnlyFourOpcodesWriteAcc : Prop :=
  ∀ s t : State, step s = .next t → t.acc ≠ s.acc →
    ∃ w, fetches s w ∧ w.toNat / 16 ∈ [0, 2, 3, 7]

/-- R68: the step that sets `pc` to 15 executes fully and leaves `Running`; the next call halts and changes
nothing else. -/
def Obligations.LastInstructionThenHalt : Prop :=
  ∀ (s t : State) (w : Word), fetches s w → step s = .next t → t.run ≠ .faulted → t.pc = 15#4 →
    t.run = .running ∧ t.cycle = s.cycle + 1 ∧ stepReturns s = false ∧
    step t = .next { t with run := .halted } ∧ stepReturns t = false

/-- R22, R30, R31: what a step does to the engine depends on the engine, on `Code[pc]` and, for `read`, `add`
and `sub`, on the one Data Word the operand names, and on nothing else in memory. -/
def Obligations.StepDependsOnTheWordsItNames : Prop :=
  ∀ (s₁ s₂ t₁ t₂ : State) (w : Word), fetches s₁ w → fetches s₂ w → sameEngine s₁ s₂ →
    (∀ i : Index, i.val = w.toNat % 16 → w.toNat / 16 ∈ [0, 2, 3] →
      memRead s₁.mem .data i = memRead s₂.mem .data i) →
    step s₁ = .next t₁ → step s₂ = .next t₂ →
    sameEngine t₁ t₂ ∧ stepReturns s₁ = stepReturns s₂

/-! ### Data transfer (42_data_transfer.md) -/

/-- R24, R42, R61: which index a data operand names: 0..14 name themselves, and exactly 15 names none. -/
def Obligations.DataOperandNamesItsOwnIndex : Prop :=
  ∀ n : Address, (∀ i, storageIndex n = some i ↔ i.val = n.toNat) ∧ (storageIndex n = none ↔ n = 15#4)

/-- R69: `read`. -/
def Obligations.ReadLoadsTheDataWord : Prop :=
  ∀ (n : Address) (s : State), (encodeWord (.read n)).toNat = 0x00 + n.toNat ∧
    (∀ i, storageIndex n = some i → ∃ t, exec (.read n) s = .next t ∧
      t.acc = memRead s.mem .data i ∧ advanced s t ∧ sameStatus s t ∧ sameMemory s t) ∧
    (n = 15#4 → ∃ t, exec (.read n) s = .next t ∧ faultEntered 0x0F#8 s t)

/-- R70: `write`. -/
def Obligations.WriteStoresTheAccumulator : Prop :=
  ∀ (n : Address) (s : State), (encodeWord (.write n)).toNat = 0x10 + n.toNat ∧
    (∀ i, storageIndex n = some i → ∃ t, exec (.write n) s = .next t ∧
      memRead t.mem .data i = s.acc ∧ sameMemoryBut .data i s t ∧
      t.acc = s.acc ∧ advanced s t ∧ sameStatus s t) ∧
    (n = 15#4 → ∃ t, exec (.write n) s = .next t ∧ faultEntered 0x1F#8 s t)

/-- R31, R70, R99: the next instruction sees the Word that `write` stored. -/
def Obligations.WriteIsSeenByTheNextInstruction : Prop :=
  ∀ (n : Address) (i : Index) (s : State), storageIndex n = some i →
    ∃ t, exec (.write n) s = .next t ∧
      (∃ u, exec (.read n) t = .next u ∧ u.acc = s.acc) ∧
      (∃ u, exec (.add n) t = .next u ∧ u.acc.toNat = min (2 * s.acc.toNat) 255) ∧
      (∃ u, exec (.sub n) t = .next u ∧ u.acc.toNat = 0)

/-! ### Arithmetic (43_arithmetic.md) -/

/-- R71: `add` saturates at 255. -/
def Obligations.AddSaturatesAt255 : Prop :=
  ∀ (n : Address) (s : State), (encodeWord (.add n)).toNat = 0x20 + n.toNat ∧
    (∀ i, storageIndex n = some i → ∃ t, exec (.add n) s = .next t ∧
      t.acc.toNat = min (s.acc.toNat + (memRead s.mem .data i).toNat) 255 ∧
      advanced s t ∧ sameStatus s t ∧ sameMemory s t) ∧
    (n = 15#4 → ∃ t, exec (.add n) s = .next t ∧ faultEntered 0x2F#8 s t)

/-- R72: `sub` saturates at 0. -/
def Obligations.SubSaturatesAtZero : Prop :=
  ∀ (n : Address) (s : State), (encodeWord (.sub n)).toNat = 0x30 + n.toNat ∧
    (∀ i, storageIndex n = some i → ∃ t, exec (.sub n) s = .next t ∧
      (t.acc.toNat : Int) = max ((s.acc.toNat : Int) - ((memRead s.mem .data i).toNat : Int)) 0 ∧
      advanced s t ∧ sameStatus s t ∧ sameMemory s t) ∧
    (n = 15#4 → ∃ t, exec (.sub n) s = .next t ∧ faultEntered 0x3F#8 s t)

/-! ### Control transfer (44_control.md) -/

/-- R73: `jump`. -/
def Obligations.JumpSetsPc : Prop :=
  ∀ (t : Address) (s : State), (encodeWord (.jump t)).toNat = 0x40 + t.toNat ∧
    ∃ u, exec (.jump t) s = .next u ∧ u.pc = t ∧ u.cycle = s.cycle + 1 ∧ u.acc = s.acc ∧
      sameStatus s u ∧ sameMemory s u

/-- R74: `jumpIfMax`. -/
def Obligations.JumpIfMaxTestsFor255 : Prop :=
  ∀ (t : Address) (s : State), (encodeWord (.jumpIfMax t)).toNat = 0x50 + t.toNat ∧
    ∃ u, exec (.jumpIfMax t) s = .next u ∧
      u.pc.toNat = (if s.acc.toNat = 255 then t.toNat else (s.pc.toNat + 1) % 16) ∧
      u.cycle = s.cycle + 1 ∧ u.acc = s.acc ∧ sameStatus s u ∧ sameMemory s u

/-- R75: `jumpIfMin`. -/
def Obligations.JumpIfMinTestsForZero : Prop :=
  ∀ (t : Address) (s : State), (encodeWord (.jumpIfMin t)).toNat = 0x60 + t.toNat ∧
    ∃ u, exec (.jumpIfMin t) s = .next u ∧
      u.pc.toNat = (if s.acc.toNat = 0 then t.toNat else (s.pc.toNat + 1) % 16) ∧
      u.cycle = s.cycle + 1 ∧ u.acc = s.acc ∧ sameStatus s u ∧ sameMemory s u

/-! ### Shift and reserved opcodes (45_shift.md, 46_reserved.md) -/

/-- R76: `shiftRight`; the operand is irrelevant, 15 included. -/
def Obligations.ShiftRightHalvesTheAccumulator : Prop :=
  ∀ (x : Nibble) (s : State), (encodeWord (.shiftRight x)).toNat = 0x70 + x.toNat ∧
    (∃ t, exec (.shiftRight x) s = .next t ∧ t.acc.toNat = s.acc.toNat / 2 ∧
      advanced s t ∧ sameStatus s t ∧ sameMemory s t) ∧
    ∀ y, exec (.shiftRight y) s = exec (.shiftRight x) s

/-- R77: each of the eight reserved opcodes, with any operand, does nothing but advance. -/
def Obligations.ReservedOpcodesOnlyAdvance : Prop :=
  ∀ (x : Nibble) (s : State) (i : Instr),
    i ∈ [.reserved8 x, .reserved9 x, .reserved10 x, .reserved11 x, .reserved12 x, .reserved13 x,
      .reserved14 x, .reserved15 x] →
    0x80 ≤ (encodeWord i).toNat ∧ (encodeWord i).toNat % 16 = x.toNat ∧
    ∃ t, exec i s = .next t ∧ t.acc = s.acc ∧ advanced s t ∧ sameStatus s t ∧ sameMemory s t

/-! ### Faults and the host (60_exceptions.md) -/

/-- R44, R61, R78: a fetched Word makes the step fault exactly if it is 0x0F, 0x1F, 0x2F or 0x3F. -/
def Obligations.FaultsOnExactlyFourWords : Prop :=
  ∀ (s : State) (w : Word), fetches s w →
    ∃ t, step s = .next t ∧ (t.run = .faulted ↔ w = 0x0F#8 ∨ w = 0x1F#8 ∨ w = 0x2F#8 ∨ w = 0x3F#8)

/-- R80: fault entry: the record, `Faulted`, false; `ir` holds the Word and nothing else changes; and so it
stays at every later step. -/
def Obligations.FaultEntryIsPrecise : Prop :=
  ∀ (s : State) (w : Word), fetches s w → faultingWord w = true →
    let record : FaultRecord := { cause := .invalidDataIndex, pc := s.pc, word := w }
    let t : State := { s with ir := some w, run := .faulted, fault := some record }
    step s = .next t ∧ stepReturns s = false ∧ FaultCause.invalidDataIndex.code = 1 ∧
    ∀ k, Host.Core.run Sys2Proof.core k t = .next t

/-- R17: the record is written by the step that faults and by nothing else, until a fresh engine is
constructed. -/
def Obligations.FaultRecordIsKept : Prop :=
  (∀ s t : State, step s = .next t → t.fault ≠ s.fault →
    s.run = .running ∧ t.run = .faulted ∧ ∃ w, fetches s w ∧ faultingWord w = true) ∧
  (∀ (a : HostAction) (s t : State) (reply : HostReply), s.Inv → s.fault ≠ none →
    hostAct a s = .next (t, reply) → t.fault = s.fault ∨ ∃ m, a = .construct m) ∧
  ∀ m : Memory, (construct m).fault = none

/-- R84: only the construction of a fresh engine leaves `Halted` or `Faulted`. -/
def Obligations.OnlyConstructionLeavesAStop : Prop :=
  ∀ (a : HostAction) (s t : State) (reply : HostReply), s.run ≠ .running →
    hostAct a s = .next (t, reply) → sameEngine s t ∨ ∃ m, a = .construct m ∧ t.run = .running

/-- R18, R93: of the host's actions only `step` and construction change the engine, and only `step`,
construction and the port's writes change a Word. -/
def Obligations.WhatTheHostCanChange : Prop :=
  ∀ (a : HostAction) (s : State), ∃ t reply, hostAct a s = .next (t, reply) ∧
    (a = .step ∨ (∃ m, a = .construct m) ∨ sameEngine s t) ∧
    (a = .step ∨ (∃ m, a = .construct m) ∨ (∃ space i w, a = .writeWord space i w) ∨
      (∃ space i k b, a = .writeBit space i k b) ∨ (∃ ws m, a = .bulkLoad ws m) ∨ sameMemory s t)

/-- R19: the accessors return the state's elements and have no side effects. -/
def Obligations.AccessorsShowTheState : Prop :=
  ∀ s : State, hostAct .getAcc s = .next (s, .word s.acc) ∧ hostAct .getPc s = .next (s, .address s.pc) ∧
    hostAct .getCycle s = .next (s, .count s.cycle) ∧
    hostAct .getCurrentOpcode s = .next (s, .nibble (s.ir.map fun w => w.extractLsb' 4 4)) ∧
    hostAct .getCurrentOperand s = .next (s, .nibble (s.ir.map fun w => w.extractLsb' 0 4)) ∧
    hostAct .getRunState s = .next (s, .runState s.run) ∧
    hostAct .getFaultRecord s = .next (s, .faultRecord s.fault)

/-! ### Reset (10_state.md R20, 70_reset_and_hazards.md) and whole-machine rules -/

/-- R20: the values after reset; Code and Data are those of the Memory the engine is bound to. `State.reset` has
the same engine. -/
def Obligations.ResetValues : Prop :=
  (∀ (m : Memory) (s : State), hostAct (.construct m) s = .next (construct m, .nothing) ∧
    (construct m).acc = 0#8 ∧ (construct m).pc = 0#4 ∧ (construct m).cycle = 0 ∧
    (construct m).run = .running ∧ (construct m).ir = none ∧ (construct m).fault = none ∧
    (construct m).mem = m) ∧
  ∀ m : Memory, sameEngine (construct m) State.reset

/-- The invariant holds after reset, bound to any canonical memory. -/
def Obligations.FreshEngineMeetsTheInvariant : Prop :=
  State.reset.Inv ∧ ∀ m : Memory, m.wf → (construct m).Inv

/-- Every step keeps the invariant. -/
def Obligations.StepKeepsTheInvariant : Prop :=
  ∀ s t : State, s.Inv → step s = .next t → t.Inv

/-- Every interaction of the host keeps the invariant. -/
def Obligations.HostActionsKeepTheInvariant : Prop :=
  ∀ (a : HostAction) (s t : State) (reply : HostReply), a.wf → s.Inv →
    hostAct a s = .next (t, reply) → t.Inv

/-- 90_conflicts.md C2: a run over a Code space without the four faulting Words never faults. -/
def Obligations.CodeWithoutFaultingWordsNeverFaults : Prop :=
  ∀ (k : Nat) (s t : State), (∀ i, faultingWord (memRead s.mem .code i) = false) → ¬s.endedInFault →
    Host.Core.run Sys2Proof.core k s = .next t → ¬t.endedInFault

/-- R94: when a step returns false, the run has ended in one of the three ways: at the sentinel or `Halted`
without a new fault record, or `Faulted`; and when it returns true, in none. -/
def Obligations.EndsOfARun : Prop :=
  ∀ s t : State, step s = .next t →
    (stepReturns s = false ↔ t.endedNormally ∨ t.endedInFault) ∧
    (t.endedNormally → t.fault = s.fault ∧ ¬t.endedInFault)

/-- R97, the model's `withFetchWord` (log 7): the step after a Word is placed at `Code[pc]` executes it. -/
def Obligations.PlacedWordIsExecutedNext : Prop :=
  ∀ (s : State) (w : Word),
    let t := s.withFetchWord 8 w.toNat
    fetches t w ∧ step t = exec (decodeWord w) { t with ir := some w } ∧
    (s.run = .running → s.pc ≠ 15#4 → sameEngine s t ∧
      ∀ i : Index, i.val = s.pc.toNat → sameMemoryBut .code i s t)
end

