-- ==== Sys2Proof/Laws/Memory.lean ====
section
/-! SUPPORT. The laws of the two address spaces: a read after a write, the canonical form and what keeps it,
and that canonical memories with equal contents are equal. -/

namespace Sys2Proof.Machine

@[simp] theorem Cells.read_nil (a : Nat) : Cells.read [] a = unlistedWord := rfl

@[simp] theorem Cells.read_cons (b : Nat) (v : Word) (c : Cells) (a : Nat) :
    Cells.read ((b, v) :: c) a = if a = b then v else Cells.read c a := rfl

/-- An index that is not listed reads as `unlistedWord`. -/
theorem Cells.read_of_unlisted (c : Cells) (a : Nat) (h : ∀ cell ∈ c, cell.1 ≠ a) :
    Cells.read c a = unlistedWord := by
  induction c with
  | nil => rfl
  | cons x c ih =>
    obtain ⟨b, v⟩ := x
    have hb : a ≠ b := fun e => h (b, v) (by simp) e.symm
    simp [hb, ih fun cell hc => h cell (by simp [hc])]

/-- Leaving out the cells of one index leaves the other indices alone. -/
theorem Cells.read_filter (c : Cells) (a b : Nat) (h : b ≠ a) :
    Cells.read (c.filter fun cell => cell.1 ≠ a) b = Cells.read c b := by
  induction c with
  | nil => rfl
  | cons x c ih =>
    obtain ⟨k, v⟩ := x
    by_cases hk : k = a
    · subst hk; simpa [h] using ih
    · simp only [ne_eq, decide_not] at ih
      simp [hk, ih]

theorem Cells.read_insert (c : Cells) (a b : Nat) (w : Word) (h : ∀ cell ∈ c, cell.1 ≠ a) :
    Cells.read (Cells.insert c a w) b = if b = a then w else Cells.read c b := by
  induction c with
  | nil => rfl
  | cons x c ih =>
    obtain ⟨k, v⟩ := x
    have hk : k ≠ a := h (k, v) (by simp)
    have ih := ih fun cell hc => h cell (by simp [hc])
    simp only [Cells.insert]
    split
    · simp
    · simp only [Cells.read_cons, ih]
      split <;> split <;> simp_all

theorem Cells.filter_unlisted (c : Cells) (a : Nat) :
    ∀ cell ∈ c.filter (fun cell => cell.1 ≠ a), cell.1 ≠ a := by
  intro cell h
  simpa using (List.mem_filter.mp h).2

/-- Read after write, in one space. -/
theorem Cells.read_write (c : Cells) (a b : Nat) (w : Word) :
    Cells.read (Cells.write c a w) b = if b = a then w else Cells.read c b := by
  have hu := Cells.filter_unlisted c a
  simp only [Cells.write]
  split
  · rename_i hw
    split
    · rename_i hb; subst hb; rw [Cells.read_of_unlisted _ _ hu, hw]
    · rename_i hb; exact Cells.read_filter c a b hb
  · rw [Cells.read_insert _ _ _ _ hu]
    split
    · rfl
    · rename_i hb; exact Cells.read_filter c a b hb

theorem Cells.mem_insert (c : Cells) (a : Nat) (w : Word) (cell : Host.Cell) :
    cell ∈ Cells.insert c a w ↔ cell = (a, w) ∨ cell ∈ c := by
  induction c with
  | nil => simp [Cells.insert]
  | cons x c ih =>
    obtain ⟨k, v⟩ := x
    simp only [Cells.insert]
    split
    · simp
    · simp only [List.mem_cons, ih]; tauto

theorem Cells.insert_rising (c : Cells) (a : Nat) (w : Word) (hc : c.Pairwise fun x y => x.1 < y.1)
    (h : ∀ cell ∈ c, cell.1 ≠ a) : (Cells.insert c a w).Pairwise fun x y => x.1 < y.1 := by
  induction c with
  | nil => simp [Cells.insert]
  | cons x c ih =>
    obtain ⟨k, v⟩ := x
    rw [List.pairwise_cons] at hc
    have hk : k ≠ a := h (k, v) (by simp)
    simp only [Cells.insert]
    split
    · rename_i hlt
      refine List.pairwise_cons.mpr ⟨fun y hy => ?_, List.pairwise_cons.mpr hc⟩
      rcases List.mem_cons.mp hy with rfl | hy
      · exact hlt
      · exact lt_trans hlt (hc.1 y hy)
    · refine List.pairwise_cons.mpr ⟨fun y hy => ?_, ih hc.2 fun cell hm => h cell (by simp [hm])⟩
      rcases (Cells.mem_insert c a w y).mp hy with rfl | hy
      · show k < a; omega
      · exact hc.1 y hy

/-- A write keeps the canonical form of a space. -/
theorem Cells.write_wf (c : Cells) (a : Nat) (w : Word) (hc : Cells.wf c) (ha : a < 15) :
    Cells.wf (Cells.write c a w) := by
  obtain ⟨hp, hm⟩ := hc
  have hp' := hp.filter fun cell => cell.1 ≠ a
  have hm' : ∀ cell ∈ c.filter (fun cell => cell.1 ≠ a), cell.1 < 15 ∧ cell.2 ≠ unlistedWord :=
    fun cell h => hm cell (List.mem_filter.mp h).1
  simp only [Cells.write]
  split
  · exact ⟨hp', hm'⟩
  · rename_i hw
    refine ⟨Cells.insert_rising _ a w hp' (Cells.filter_unlisted c a), fun cell h => ?_⟩
    rcases (Cells.mem_insert _ a w cell).mp h with rfl | h
    · exact ⟨ha, hw⟩
    · exact hm' cell h

/-- In a canonical space the first cell is the lowest index that does not read as unlisted. -/
theorem Cells.read_below_head (b : Nat) (v : Word) (c : Cells)
    (h : ((b, v) :: c).Pairwise fun x y => x.1 < y.1) (a : Nat) (ha : a < b) :
    Cells.read ((b, v) :: c) a = unlistedWord := by
  refine Cells.read_of_unlisted _ a fun cell hc => ?_
  rcases List.mem_cons.mp hc with rfl | hc
  · exact (Nat.ne_of_lt ha).symm
  · have := (List.pairwise_cons.mp h).1 cell hc
    simp only at this; omega

/-- Canonical spaces that read alike are equal. -/
theorem Cells.ext_of_wf (c d : Cells) (hc : Cells.wf c) (hd : Cells.wf d)
    (h : ∀ a, Cells.read c a = Cells.read d a) : c = d := by
  induction c generalizing d with
  | nil =>
    cases d with
    | nil => rfl
    | cons y d =>
      obtain ⟨k, v⟩ := y
      exact absurd (by simpa using (h k).symm) (hd.2 (k, v) (by simp)).2
  | cons x c ih =>
    obtain ⟨b, v⟩ := x
    have hv := (hc.2 (b, v) (by simp)).2
    cases d with
    | nil => exact absurd (by simpa using h b) hv
    | cons y d =>
      obtain ⟨k, u⟩ := y
      have hu := (hd.2 (k, u) (by simp)).2
      have hbk : b = k := by
        rcases Nat.lt_trichotomy b k with hlt | heq | hgt
        · have := h b
          rw [Cells.read_below_head k u d hd.1 b hlt] at this
          exact absurd (by simpa using this) hv
        · exact heq
        · have := h k
          rw [Cells.read_below_head b v c hc.1 k hgt] at this
          exact absurd (by simpa using this.symm) hu
      subst hbk
      have hvu : v = u := by simpa using h b
      subst hvu
      have hc' := List.pairwise_cons.mp hc.1
      have hd' := List.pairwise_cons.mp hd.1
      rw [ih d ⟨hc'.2, fun cell m => hc.2 cell (by simp [m])⟩ ⟨hd'.2, fun cell m => hd.2 cell (by simp [m])⟩]
      intro a
      by_cases hab : a = b
      · subst hab
        rw [Cells.read_of_unlisted c a fun cell m => (Nat.ne_of_lt (hc'.1 cell m)).symm,
          Cells.read_of_unlisted d a fun cell m => (Nat.ne_of_lt (hd'.1 cell m)).symm]
      · simpa [hab] using h a

/-- A canonical space lists no index from 15 on. -/
theorem Cells.read_beyond (c : Cells) (hc : Cells.wf c) (a : Nat) (ha : 15 ≤ a) :
    Cells.read c a = unlistedWord :=
  Cells.read_of_unlisted c a fun cell h => by have := (hc.2 cell h).1; omega

@[simp] theorem memRead_code (c d : Cells) (i : Index) : memRead ⟨c, d⟩ .code i = Cells.read c i.val := rfl

@[simp] theorem memRead_data (c d : Cells) (i : Index) : memRead ⟨c, d⟩ .data i = Cells.read d i.val := rfl

/-- A write to one space leaves the other alone (R21). -/
@[simp] theorem memWrite_data_code (m : Memory) (i : Index) (w : Word) :
    (memWrite m .data i w).code = m.code := rfl

/-- Placing a Word keeps the canonical form. -/
theorem placeWord_wf (m : Memory) (k : Nat) (w : Word) (h : m.wf) : (placeWord m k w).wf := by
  simp only [placeWord]
  split
  · exact ⟨Cells.write_wf _ _ _ h.1 ‹_›, h.2⟩
  · split
    · exact ⟨h.1, Cells.write_wf _ _ _ h.2 ‹_›⟩
    · exact h

/-- A Word write keeps the canonical form. -/
theorem memWrite_wf (m : Memory) (space : Space) (i : Index) (w : Word) (h : m.wf) : (memWrite m space i w).wf := by
  cases space with
  | code => exact ⟨Cells.write_wf _ _ _ h.1 i.isLt, h.2⟩
  | data => exact ⟨h.1, Cells.write_wf _ _ _ h.2 i.isLt⟩

/-- A bit write keeps the canonical form. -/
theorem memWriteBit_wf (m : Memory) (space : Space) (i : Index) (k : BitIndex) (b : Bool) (h : m.wf) :
    (memWriteBit m space i k b).wf := memWrite_wf m space i _ h

/-- Placing a sequence of Words keeps the canonical form. -/
theorem placeWords_wf (ws : List Word) (m : Memory) (k : Nat) (h : m.wf) : (placeWords m k ws).wf := by
  induction ws generalizing m k with
  | nil => exact h
  | cons w ws ih => exact ih _ _ (placeWord_wf m k w h)

/-- A bulk load keeps the canonical form. -/
theorem bulkLoad_wf (ws : List Word) (m : Memory) (h : m.wf) : (bulkLoad ws m).wf := placeWords_wf ws m 0 h

/-- The memory of `State.reset` is in canonical form. -/
theorem reset_memory_wf : State.reset.mem.wf := by decide

end Sys2Proof.Machine
end

