-- ==== Sys2Proof/Laws/State.lean ====
section
/-! SUPPORT. One lemma per field and per update of a state: what each shared operation leaves in each field. -/

namespace Sys2Proof.Machine

@[simp] theorem setAcc_acc (v : Word) (s : State) : (setAcc v s).acc = v := rfl
@[simp] theorem setAcc_pc (v : Word) (s : State) : (setAcc v s).pc = s.pc := rfl
@[simp] theorem setAcc_cycle (v : Word) (s : State) : (setAcc v s).cycle = s.cycle := rfl
@[simp] theorem setAcc_run (v : Word) (s : State) : (setAcc v s).run = s.run := rfl
@[simp] theorem setAcc_ir (v : Word) (s : State) : (setAcc v s).ir = s.ir := rfl
@[simp] theorem setAcc_fault (v : Word) (s : State) : (setAcc v s).fault = s.fault := rfl
@[simp] theorem setAcc_mem (v : Word) (s : State) : (setAcc v s).mem = s.mem := rfl

@[simp] theorem storeData_acc (i : Index) (v : Word) (s : State) : (storeData i v s).acc = s.acc := rfl
@[simp] theorem storeData_pc (i : Index) (v : Word) (s : State) : (storeData i v s).pc = s.pc := rfl
@[simp] theorem storeData_cycle (i : Index) (v : Word) (s : State) : (storeData i v s).cycle = s.cycle := rfl
@[simp] theorem storeData_run (i : Index) (v : Word) (s : State) : (storeData i v s).run = s.run := rfl
@[simp] theorem storeData_ir (i : Index) (v : Word) (s : State) : (storeData i v s).ir = s.ir := rfl
@[simp] theorem storeData_fault (i : Index) (v : Word) (s : State) : (storeData i v s).fault = s.fault := rfl
@[simp] theorem storeData_mem (i : Index) (v : Word) (s : State) : (storeData i v s).mem = memWrite s.mem .data i v := rfl

@[simp] theorem recordFetch_acc (w : Word) (s : State) : (recordFetch w s).acc = s.acc := rfl
@[simp] theorem recordFetch_pc (w : Word) (s : State) : (recordFetch w s).pc = s.pc := rfl
@[simp] theorem recordFetch_cycle (w : Word) (s : State) : (recordFetch w s).cycle = s.cycle := rfl
@[simp] theorem recordFetch_run (w : Word) (s : State) : (recordFetch w s).run = s.run := rfl
@[simp] theorem recordFetch_ir (w : Word) (s : State) : (recordFetch w s).ir = some w := rfl
@[simp] theorem recordFetch_fault (w : Word) (s : State) : (recordFetch w s).fault = s.fault := rfl
@[simp] theorem recordFetch_mem (w : Word) (s : State) : (recordFetch w s).mem = s.mem := rfl

@[simp] theorem retire_acc (taken : Bool) (target : Address) (s : State) : (retire taken target s).acc = s.acc := rfl
@[simp] theorem retire_pc (taken : Bool) (target : Address) (s : State) : (retire taken target s).pc = if taken then target else s.pc + 1 := rfl
@[simp] theorem retire_cycle (taken : Bool) (target : Address) (s : State) : (retire taken target s).cycle = s.cycle + 1 := rfl
@[simp] theorem retire_run (taken : Bool) (target : Address) (s : State) : (retire taken target s).run = s.run := rfl
@[simp] theorem retire_ir (taken : Bool) (target : Address) (s : State) : (retire taken target s).ir = s.ir := rfl
@[simp] theorem retire_fault (taken : Bool) (target : Address) (s : State) : (retire taken target s).fault = s.fault := rfl
@[simp] theorem retire_mem (taken : Bool) (target : Address) (s : State) : (retire taken target s).mem = s.mem := rfl

@[simp] theorem advance_acc (s : State) : (advance s).acc = s.acc := rfl
@[simp] theorem advance_pc (s : State) : (advance s).pc = s.pc + 1 := rfl
@[simp] theorem advance_cycle (s : State) : (advance s).cycle = s.cycle + 1 := rfl
@[simp] theorem advance_run (s : State) : (advance s).run = s.run := rfl
@[simp] theorem advance_ir (s : State) : (advance s).ir = s.ir := rfl
@[simp] theorem advance_fault (s : State) : (advance s).fault = s.fault := rfl
@[simp] theorem advance_mem (s : State) : (advance s).mem = s.mem := rfl

@[simp] theorem enterHalted_acc (s : State) : (enterHalted s).acc = s.acc := rfl
@[simp] theorem enterHalted_pc (s : State) : (enterHalted s).pc = s.pc := rfl
@[simp] theorem enterHalted_cycle (s : State) : (enterHalted s).cycle = s.cycle := rfl
@[simp] theorem enterHalted_run (s : State) : (enterHalted s).run = .halted := rfl
@[simp] theorem enterHalted_ir (s : State) : (enterHalted s).ir = s.ir := rfl
@[simp] theorem enterHalted_fault (s : State) : (enterHalted s).fault = s.fault := rfl
@[simp] theorem enterHalted_mem (s : State) : (enterHalted s).mem = s.mem := rfl

@[simp] theorem raiseFault_acc (cause : FaultCause) (word : Word) (s : State) : (raiseFault cause word s).acc = s.acc := rfl
@[simp] theorem raiseFault_pc (cause : FaultCause) (word : Word) (s : State) : (raiseFault cause word s).pc = s.pc := rfl
@[simp] theorem raiseFault_cycle (cause : FaultCause) (word : Word) (s : State) : (raiseFault cause word s).cycle = s.cycle := rfl
@[simp] theorem raiseFault_run (cause : FaultCause) (word : Word) (s : State) : (raiseFault cause word s).run = .faulted := rfl
@[simp] theorem raiseFault_ir (cause : FaultCause) (word : Word) (s : State) : (raiseFault cause word s).ir = s.ir := rfl
@[simp] theorem raiseFault_fault (cause : FaultCause) (word : Word) (s : State) : (raiseFault cause word s).fault = some ⟨cause, s.pc, word⟩ := rfl
@[simp] theorem raiseFault_mem (cause : FaultCause) (word : Word) (s : State) : (raiseFault cause word s).mem = s.mem := rfl

@[simp] theorem construct_acc (m : Memory) : (construct m).acc = 0 := rfl
@[simp] theorem construct_pc (m : Memory) : (construct m).pc = 0 := rfl
@[simp] theorem construct_cycle (m : Memory) : (construct m).cycle = 0 := rfl
@[simp] theorem construct_run (m : Memory) : (construct m).run = .running := rfl
@[simp] theorem construct_ir (m : Memory) : (construct m).ir = none := rfl
@[simp] theorem construct_fault (m : Memory) : (construct m).fault = none := rfl
@[simp] theorem construct_mem (m : Memory) : (construct m).mem = m := rfl

/-- The state right after reset is a fresh engine bound to a memory with nothing listed. -/
theorem reset_eq_construct : State.reset = construct Memory.unloaded := rfl

end Sys2Proof.Machine
end

