-- ==== Sys2Proof/Laws/Ops.lean ====
section
/-! SUPPORT. One lemma per shared operation, saying once everything it can do. -/

namespace Sys2Proof.Machine

/-- An Address below 15 names the index of its value. -/
theorem storageIndex_of_lt (a : Address) (h : a.toNat < 15) : storageIndex a = some ⟨a.toNat, h⟩ := by
  simp [storageIndex, h]

/-- Exactly the sentinel names no index. -/
theorem storageIndex_eq_none (a : Address) : storageIndex a = none ↔ a = Config.haltSentinel := by
  revert a; decide

theorem storageIndex_eq_some (a : Address) (i : Index) : storageIndex a = some i ↔ i.val = a.toNat := by
  revert a i; decide

/-- A data instruction answers a next state: its effect at a valid index, or fault entry at operand 15. -/
theorem withDataIndex_next (word : Word) (n : Address) (s : State) (effect : Index → State) (t : State)
    (h : withDataIndex word n s effect = .next t) :
    (∃ i, storageIndex n = some i ∧ t = effect i) ∨
    (n = Config.haltSentinel ∧ t = raiseFault .invalidDataIndex word s) := by
  simp only [withDataIndex] at h
  split at h
  · rename_i i hi
    cases h; exact .inl ⟨i, hi, rfl⟩
  · rename_i hn
    cases h; exact .inr ⟨(storageIndex_eq_none n).mp hn, rfl⟩

theorem withDataIndex_some (word : Word) (n : Address) (s : State) (effect : Index → State) (i : Index)
    (h : storageIndex n = some i) : withDataIndex word n s effect = .next (effect i) := by
  simp [withDataIndex, h]

theorem withDataIndex_sentinel (word : Word) (s : State) (effect : Index → State) :
    withDataIndex word Config.haltSentinel s effect = .next (raiseFault .invalidDataIndex word s) := rfl

@[simp] theorem reservedOperation_nop (s : State) : reservedOperation .nop s = .next (advance s) := rfl

@[simp] theorem reservedOperation_refuse (s : State) :
    reservedOperation .refuse s = .refused .reservedOpcode := rfl

@[simp] theorem stopped_iff (s : State) : stopped s = true ↔ s.run ≠ .running := by simp [stopped]

/-- A step of a stopped engine. -/
theorem step_of_stopped (s : State) (h : s.run ≠ .running) : step s = .next s := by
  simp [step, stopped, h]

/-- A step that finds the sentinel. -/
theorem step_at_sentinel (s : State) (hr : s.run = .running) (hp : s.pc = Config.haltSentinel) :
    step s = .next (enterHalted s) := by
  simp [step, stopped, hr, fetch, (storageIndex_eq_none s.pc).mpr hp]

/-- A step that fetches. -/
theorem step_of_fetch (s : State) (hr : s.run = .running) (i : Index) (hi : i.val = s.pc.toNat) :
    step s = exec (decodeWord (memRead s.mem .code i)) (recordFetch (memRead s.mem .code i) s) := by
  simp [step, stopped, hr, fetch, (storageIndex_eq_some s.pc i).mpr hi]

end Sys2Proof.Machine
end

