-- ==== Sys2Proof/Laws/Kernel.lean ====
section
/-! SUPPORT. Small lemmas of the kernel and of the instruction fields. -/

namespace Sys2Proof.Kernel

theorem toUnsigned_nonneg {L : Nat} (v : BitVec L) : 0 ≤ toUnsigned v := Int.natCast_nonneg _

theorem toUnsigned_lt {L : Nat} (v : BitVec L) : toUnsigned v < 2 ^ L := by
  have := v.isLt
  simp only [toUnsigned]
  exact_mod_cast this

theorem splitNibbles_append (opcode operand : Nibble) :
    splitNibbles (opcode ++ operand) = (opcode, operand) := by
  simp only [splitNibbles, Prod.mk.injEq]
  constructor
  · revert opcode operand; decide
  · revert opcode operand; decide

end Sys2Proof.Kernel

namespace Sys2Proof

/-- The fields of a Word put together again. -/
theorem nibbles_append (w : Word) : ((Kernel.splitNibbles w).1 ++ (Kernel.splitNibbles w).2 : Word) = w := by
  revert w; decide

theorem opcodeOf_ofFields (opcode operand : Nibble) : opcodeOf (ofFields opcode operand) = opcode := by
  revert opcode operand; decide

theorem operandOf_ofFields (opcode operand : Nibble) : operandOf (ofFields opcode operand) = operand := by
  revert opcode operand; decide

/-- R60: the opcode of a decoded Word is its high nibble. -/
theorem opcodeOf_decodeWord (w : Word) : opcodeOf (decodeWord w) = w.extractLsb' 4 4 := by
  simp [decodeWord, opcodeOf_ofFields, Kernel.splitNibbles]

/-- R60: the operand of a decoded Word is its low nibble. -/
theorem operandOf_decodeWord (w : Word) : operandOf (decodeWord w) = w.extractLsb' 0 4 := by
  simp [decodeWord, operandOf_ofFields, Kernel.splitNibbles]

/-- The high nibble in numbers. -/
theorem toNat_highNibble (w : Word) : (w.extractLsb' 4 4).toNat = w.toNat / 16 := by revert w; decide

/-- The low nibble in numbers. -/
theorem toNat_lowNibble (w : Word) : (w.extractLsb' 0 4).toNat = w.toNat % 16 := by revert w; decide

/-- `pc + 1` in numbers (R63). -/
theorem toNat_succ_address (pc : Address) : (pc + 1).toNat = (pc.toNat + 1) % 16 := by simp [BitVec.toNat_add]

end Sys2Proof
end

