-- ==== Sys2Proof/Laws/PerInstr.lean ====
section
/-! SUPPORT. Statements about every instruction, one lemma per constructor. Family `EncodingFields`: the Word
of an instruction splits into its opcode and its operand (30_encoding.md R41, 40_alu.md R51). -/

namespace Sys2Proof.Laws.EncodingFields

/-- The fields of `i`'s Word are `i`'s opcode and operand. -/
def Statement (i : Instr) : Prop := Kernel.splitNibbles (encodeWord i) = (opcodeOf i, operandOf i)

theorem read (x : Nibble) : Statement (.read x) := Kernel.splitNibbles_append _ _
theorem write (x : Nibble) : Statement (.write x) := Kernel.splitNibbles_append _ _
theorem add (x : Nibble) : Statement (.add x) := Kernel.splitNibbles_append _ _
theorem sub (x : Nibble) : Statement (.sub x) := Kernel.splitNibbles_append _ _
theorem jump (x : Nibble) : Statement (.jump x) := Kernel.splitNibbles_append _ _
theorem jumpIfMax (x : Nibble) : Statement (.jumpIfMax x) := Kernel.splitNibbles_append _ _
theorem jumpIfMin (x : Nibble) : Statement (.jumpIfMin x) := Kernel.splitNibbles_append _ _
theorem shiftRight (x : Nibble) : Statement (.shiftRight x) := Kernel.splitNibbles_append _ _
theorem reserved8 (x : Nibble) : Statement (.reserved8 x) := Kernel.splitNibbles_append _ _
theorem reserved9 (x : Nibble) : Statement (.reserved9 x) := Kernel.splitNibbles_append _ _
theorem reserved10 (x : Nibble) : Statement (.reserved10 x) := Kernel.splitNibbles_append _ _
theorem reserved11 (x : Nibble) : Statement (.reserved11 x) := Kernel.splitNibbles_append _ _
theorem reserved12 (x : Nibble) : Statement (.reserved12 x) := Kernel.splitNibbles_append _ _
theorem reserved13 (x : Nibble) : Statement (.reserved13 x) := Kernel.splitNibbles_append _ _
theorem reserved14 (x : Nibble) : Statement (.reserved14 x) := Kernel.splitNibbles_append _ _
theorem reserved15 (x : Nibble) : Statement (.reserved15 x) := Kernel.splitNibbles_append _ _

end Sys2Proof.Laws.EncodingFields
end

