-- ==== Sys2Proof/Laws/Step.lean ====
section
/-! SUPPORT. What `exec` and `step` can answer, said once: every other lemma about a step is a case analysis of
these. -/

namespace Sys2Proof.Machine

/-- The instruction indexes Data with operand 15 (R61). -/
abbrev indexesBeyondData (i : Instr) : Prop := (opcodeOf i).toNat < 4 ∧ operandOf i = Config.haltSentinel

/-- The transfer of a jump happens (R73 to R75). -/
abbrev transfers (i : Instr) (s : State) : Prop :=
  (opcodeOf i).toNat = 4 ∨ ((opcodeOf i).toNat = 5 ∧ s.acc.toNat = 255) ∨ ((opcodeOf i).toNat = 6 ∧ s.acc.toNat = 0)

/-- What an executed instruction leaves: the fields that no instruction writes, the advance, the count, and
the one change to memory there can be. -/
structure Executed (i : Instr) (s t : State) : Prop where
  run : t.run = s.run
  ir : t.ir = s.ir
  fault : t.fault = s.fault
  cycle : t.cycle = s.cycle + 1
  pc_taken : transfers i s → t.pc = operandOf i
  pc_next : ¬transfers i s → t.pc = s.pc + 1
  mem : t.mem = s.mem ∨ ∃ k, (opcodeOf i).toNat = 1 ∧ storageIndex (operandOf i) = some k ∧
    t.mem = memWrite s.mem .data k s.acc
  acc : t.acc = s.acc ∨ (opcodeOf i).toNat ∈ [0, 2, 3, 7]

@[simp] theorem accIsMax_iff (s : State) : accIsMax s = true ↔ s.acc.toNat = 255 := by
  rw [accIsMax, Kernel.toUnsigned, decide_eq_true_eq]; omega

@[simp] theorem accIsMin_iff (s : State) : accIsMin s = true ↔ s.acc.toNat = 0 := by
  rw [accIsMin, Kernel.toUnsigned, decide_eq_true_eq]; omega

theorem executed_advance {i : Instr} {s u : State} (ht : ¬transfers i s) (hr : u.run = s.run) (hi : u.ir = s.ir)
    (hf : u.fault = s.fault) (hc : u.cycle = s.cycle) (hp : u.pc = s.pc)
    (hm : u.mem = s.mem ∨ ∃ k, (opcodeOf i).toNat = 1 ∧ storageIndex (operandOf i) = some k ∧
      u.mem = memWrite s.mem .data k s.acc)
    (ha : u.acc = s.acc ∨ (opcodeOf i).toNat ∈ [0, 2, 3, 7]) : Executed i s (advance u) :=
  ⟨hr, hi, hf, by simp [hc], fun h => absurd h ht, fun _ => by simp [hp], hm, ha⟩

/-- A data instruction, given what it does at a valid index. -/
theorem exec_data {i : Instr} {s : State} {effect : Index → State}
    (hi : exec i s = withDataIndex (encodeWord i) (operandOf i) s effect) (hop : (opcodeOf i).toNat < 4)
    (he : ∀ k, storageIndex (operandOf i) = some k → Executed i s (effect k)) :
    ∃ t, exec i s = .next t ∧
      ((indexesBeyondData i ∧ t = raiseFault .invalidDataIndex (encodeWord i) s) ∨
       (¬indexesBeyondData i ∧ Executed i s t)) := by
  cases hk : storageIndex (operandOf i) with
  | none =>
    have hn := (storageIndex_eq_none _).mp hk
    refine ⟨_, by rw [hi, hn]; exact withDataIndex_sentinel _ _ _, .inl ⟨⟨hop, hn⟩, rfl⟩⟩
  | some k =>
    refine ⟨_, by rw [hi]; exact withDataIndex_some _ _ _ _ k hk, .inr ⟨fun h => ?_, he k hk⟩⟩
    rw [(storageIndex_eq_none _).mpr h.2] at hk
    cases hk

/-- An instruction that is no data instruction, given what it does. -/
theorem exec_plain {i : Instr} {s u : State} (hi : exec i s = .next u) (hop : ¬(opcodeOf i).toNat < 4)
    (he : Executed i s u) :
    ∃ t, exec i s = .next t ∧
      ((indexesBeyondData i ∧ t = raiseFault .invalidDataIndex (encodeWord i) s) ∨
       (¬indexesBeyondData i ∧ Executed i s t)) :=
  ⟨u, hi, .inr ⟨fun h => hop h.1, he⟩⟩

/-- A reserved instruction. -/
theorem exec_reserved {i : Instr} {s : State} (hi : exec i s = .next (advance s)) (hop : 8 ≤ (opcodeOf i).toNat) :
    ∃ t, exec i s = .next t ∧
      ((indexesBeyondData i ∧ t = raiseFault .invalidDataIndex (encodeWord i) s) ∨
       (¬indexesBeyondData i ∧ Executed i s t)) :=
  exec_plain hi (by omega)
    (executed_advance (by unfold transfers; omega) rfl rfl rfl rfl rfl (.inl rfl) (.inl rfl))

/-- What `exec` answers: a next state, which is fault entry or the instruction executed. -/
theorem exec_cases (i : Instr) (s : State) :
    ∃ t, exec i s = .next t ∧
      ((indexesBeyondData i ∧ t = raiseFault .invalidDataIndex (encodeWord i) s) ∨
       (¬indexesBeyondData i ∧ Executed i s t)) := by
  cases i with
  | read n =>
    exact exec_data rfl (show (opcodeOf (.read n)).toNat < 4 by simp [opcodeOf]) fun k hk =>
      executed_advance (by simp [transfers, opcodeOf]) rfl rfl rfl rfl rfl (.inl rfl) (.inr (by simp [opcodeOf]))
  | write n =>
    exact exec_data rfl (show (opcodeOf (.write n)).toNat < 4 by simp [opcodeOf]) fun k hk =>
      executed_advance (u := storeData k s.acc s) (by simp [transfers, opcodeOf]) rfl rfl rfl rfl rfl (.inr ⟨k, rfl, hk, rfl⟩) (.inl rfl)
  | add n =>
    exact exec_data rfl (show (opcodeOf (.add n)).toNat < 4 by simp [opcodeOf]) fun k hk =>
      executed_advance (by simp [transfers, opcodeOf]) rfl rfl rfl rfl rfl (.inl rfl) (.inr (by simp [opcodeOf]))
  | sub n =>
    exact exec_data rfl (show (opcodeOf (.sub n)).toNat < 4 by simp [opcodeOf]) fun k hk =>
      executed_advance (by simp [transfers, opcodeOf]) rfl rfl rfl rfl rfl (.inl rfl) (.inr (by simp [opcodeOf]))
  | jump t =>
    exact exec_plain rfl (by simp [opcodeOf])
      ⟨rfl, rfl, rfl, rfl, fun _ => rfl, fun h => absurd (.inl rfl) h, .inl rfl, .inl rfl⟩
  | jumpIfMax t =>
    refine exec_plain rfl (by simp [opcodeOf]) ⟨rfl, rfl, rfl, rfl, fun h => ?_, fun h => ?_, .inl rfl, .inl rfl⟩
    · simp [transfers, opcodeOf] at h; simp [operandOf, h]
    · simp [transfers, opcodeOf] at h; simp [h]
  | jumpIfMin t =>
    refine exec_plain rfl (by simp [opcodeOf]) ⟨rfl, rfl, rfl, rfl, fun h => ?_, fun h => ?_, .inl rfl, .inl rfl⟩
    · simp [transfers, opcodeOf] at h; simp [operandOf, h]
    · simp [transfers, opcodeOf] at h; simp [h]
  | shiftRight x =>
    exact exec_plain rfl (by simp [opcodeOf])
      (executed_advance (by simp [transfers, opcodeOf]) rfl rfl rfl rfl rfl (.inl rfl) (.inr (by simp [opcodeOf])))
  | reserved8 x => exact exec_reserved rfl (by simp [opcodeOf])
  | reserved9 x => exact exec_reserved rfl (by simp [opcodeOf])
  | reserved10 x => exact exec_reserved rfl (by simp [opcodeOf])
  | reserved11 x => exact exec_reserved rfl (by simp [opcodeOf])
  | reserved12 x => exact exec_reserved rfl (by simp [opcodeOf])
  | reserved13 x => exact exec_reserved rfl (by simp [opcodeOf])
  | reserved14 x => exact exec_reserved rfl (by simp [opcodeOf])
  | reserved15 x => exact exec_reserved rfl (by simp [opcodeOf])

/-- What `step` can answer: nothing changed, halted, fault entry, or the fetched instruction executed. -/
theorem step_cases (s : State) :
    ∃ t, step s = .next t ∧
      ((s.run ≠ .running ∧ t = s) ∨
       (s.run = .running ∧ s.pc = Config.haltSentinel ∧ t = enterHalted s) ∨
       ∃ k : Index, s.run = .running ∧ k.val = s.pc.toNat ∧
         ((indexesBeyondData (decodeWord (memRead s.mem .code k)) ∧
           t = raiseFault .invalidDataIndex (encodeWord (decodeWord (memRead s.mem .code k)))
             (recordFetch (memRead s.mem .code k) s)) ∨
          (¬indexesBeyondData (decodeWord (memRead s.mem .code k)) ∧
           Executed (decodeWord (memRead s.mem .code k)) (recordFetch (memRead s.mem .code k) s) t))) := by
  by_cases hr : s.run = .running
  · by_cases hp : s.pc = Config.haltSentinel
    · exact ⟨_, step_at_sentinel s hr hp, .inr (.inl ⟨hr, hp, rfl⟩)⟩
    · have hlt : s.pc.toNat < 15 := by
        have : s.pc.toNat ≠ 15 := fun h => hp (BitVec.eq_of_toNat_eq h)
        omega
      obtain ⟨t, ht, hc⟩ := exec_cases (decodeWord (memRead s.mem .code ⟨s.pc.toNat, hlt⟩))
        (recordFetch (memRead s.mem .code ⟨s.pc.toNat, hlt⟩) s)
      exact ⟨t, by rw [step_of_fetch s hr ⟨s.pc.toNat, hlt⟩ rfl, ht],
        .inr (.inr ⟨⟨s.pc.toNat, hlt⟩, hr, rfl, hc⟩)⟩
  · exact ⟨s, step_of_stopped s hr, .inl ⟨hr, rfl⟩⟩

end Sys2Proof.Machine
end

