-- ==== Sys2Proof/Laws/HostPort.lean ====
section
/-! SUPPORT. `fetches`, and what a step returns to the host in each of its cases. -/

namespace Sys2Proof.Machine

/-- A state that fetches stands below the sentinel. -/
theorem fetches_pc_ne {s : State} {w : Word} (h : fetches s w) : s.pc ≠ Config.haltSentinel := by
  obtain ⟨_, i, hi, _⟩ := h
  intro hp
  have := i.isLt
  rw [hi, hp] at this
  simp at this

/-- The fetched Word is the one `fetch` gives. -/
theorem fetch_of_fetches {s : State} {w : Word} (h : fetches s w) : fetch s = some w := by
  obtain ⟨_, i, hi, rfl⟩ := h
  simp [fetch, (storageIndex_eq_some s.pc i).mpr hi]

/-- A step that fetches `w` executes what `w` decodes to. -/
theorem step_of_fetches {s : State} {w : Word} (h : fetches s w) :
    step s = exec (decodeWord w) (recordFetch w s) := by
  obtain ⟨hr, i, hi, rfl⟩ := h
  exact step_of_fetch s hr i hi

/-- A running engine below the sentinel fetches some Word. -/
theorem fetches_of_running {s : State} (hr : s.run = .running) (hp : s.pc ≠ Config.haltSentinel) :
    ∃ w, fetches s w := by
  cases hi : storageIndex s.pc with
  | none => exact absurd ((storageIndex_eq_none _).mp hi) hp
  | some i => exact ⟨_, hr, i, (storageIndex_eq_some _ _).mp hi, rfl⟩

theorem stepReturns_of_stopped {s : State} (h : s.run ≠ .running) : stepReturns s = false := by
  simp [stepReturns, stopped, h]

theorem stepReturns_at_sentinel {s : State} (hr : s.run = .running) (hp : s.pc = Config.haltSentinel) :
    stepReturns s = false := by
  simp [stepReturns, stopped, hr, fetch, (storageIndex_eq_none s.pc).mpr hp]

theorem stepReturns_of_fetches {s t : State} {w : Word} (h : fetches s w) (ht : step s = .next t) :
    stepReturns s = (t.run ≠ .faulted && t.pc ≠ Config.haltSentinel) := by
  simp [stepReturns, stopped, h.1, fetch_of_fetches h, ht]

end Sys2Proof.Machine
end

