-- ==== Sys2Proof/Tests/Slice0.lean ====
section
/-! SUPPORT. Tests. Expected results are the spec's: S<n>, V<n> and P<n> are the vectors of 95_test_vectors.md,
other words are written out from 30_encoding.md R43. After them, a witness for the hypotheses of every
statement that has some. -/

namespace Sys2Proof.Tests

open Sys2Proof Sys2Proof.Machine

/-- A running engine that has executed seven instructions, the last of them Word 0x80. -/
def engine (pc : Address) (acc : Word) (code data : Cells) : State :=
  { acc := acc, pc := pc, cycle := 7, run := .running, ir := some 0x80#8, fault := none, mem := ⟨code, data⟩ }

/-- The engine with one Word at `Code[pc]`. -/
def engineAt (pc : Address) (acc : Word) (w : Word) (data : Cells) : State := engine pc acc [(pc.toNat, w)] data

/-- An engine that faulted on Word 0x0F at index 2. -/
def faultedEngine : State :=
  { engineAt 2 5 0x0F#8 [] with ir := some 0x0F#8, run := .faulted, fault := some ⟨.invalidDataIndex, 2, 0x0F#8⟩ }

/-- What a value of interest is in the next state, if there is one. -/
def after {α : Type} (r : Host.Outcome State Fault Refusal) (view : State → α) : Option α :=
  match r with
  | .next t => some (view t)
  | .fault _ => none
  | .refused _ => none

/-- The reply of the core to the host, and the Word at an index after the action. -/
def reply (r : HostResult) : Option HostReply :=
  match r with
  | .next (_, a) => some a
  | .fault _ => none
  | .refused _ => none

def wordAfter (r : HostResult) (space : Space) (i : Index) : Option Word :=
  match r with
  | .next (t, _) => some (memRead t.mem space i)
  | .fault _ => none
  | .refused _ => none

/-! ### Well-formedness: an ill-formed term for each check -/

theorem test_wf_readWord : (RawRequest.readWord .code 15).wf = false := by decide
theorem test_wf_writeWord : (RawRequest.writeWord .data 15 0).wf = false := by decide
theorem test_wf_readBit_index : (RawRequest.readBit .data 15 0).wf = false := by decide
theorem test_wf_readBit_bit : (RawRequest.readBit .data 14 8).wf = false := by decide
theorem test_wf_writeBit_index : (RawRequest.writeBit .data 15 7 true).wf = false := by decide
theorem test_wf_writeBit_bit : (RawRequest.writeBit .code 0 8 true).wf = false := by decide
theorem test_wf_operand : (AsmOperand.num 16).wf = false := by decide
theorem test_wf_missing_operand : (AsmItem.instr .read none).wf = false := by decide
theorem test_wf_item_operand : (AsmItem.instr .jump (some (.num 16))).wf = false := by decide
theorem test_wf_word : (AsmItem.word 256).wf = false := by decide
theorem test_wf_line : (AsmLine.mk none (some (.word 256))).wf = false := by decide
theorem test_wf_memory_order : ¬(HostAction.construct ⟨[(1, 1#8), (0, 1#8)], []⟩).wf := by decide
theorem test_wf_memory_index : ¬(HostAction.bulkLoad [] ⟨[], [(15, 1#8)]⟩).wf := by decide
theorem test_wf_memory_listed_default : ¬(Memory.mk [(3, 0#8)] []).wf := by decide
theorem test_wf_every_instruction (i : Instr) : i.wf = true := rfl

/-! ### Decoding: words written out from 30_encoding.md R43 -/

theorem test_decode_data_transfer :
    decodeWord 0b00000011#8 = .read 3 ∧ decodeWord 0b00011110#8 = .write 14 ∧ decodeWord 0b00011111#8 = .write 15 := by
  decide
theorem test_decode_arithmetic : decodeWord 0b00100000#8 = .add 0 ∧ decodeWord 0b00110001#8 = .sub 1 := by decide
theorem test_decode_control :
    decodeWord 0b01001111#8 = .jump 15 ∧ decodeWord 0b01010111#8 = .jumpIfMax 7 ∧ decodeWord 0b01101010#8 = .jumpIfMin 10 := by
  decide
theorem test_decode_shift : decodeWord 0b01110101#8 = .shiftRight 5 := by decide
theorem test_decode_reserved :
    decodeWord 0b10001111#8 = .reserved8 15 ∧ decodeWord 0b10010000#8 = .reserved9 0 ∧
    decodeWord 0b10100001#8 = .reserved10 1 ∧ decodeWord 0b10110010#8 = .reserved11 2 ∧
    decodeWord 0b11000011#8 = .reserved12 3 ∧ decodeWord 0b11010100#8 = .reserved13 4 ∧
    decodeWord 0b11100101#8 = .reserved14 5 ∧ decodeWord 0b11111111#8 = .reserved15 15 := by
  decide
theorem test_decode_nothing : (match decode [] with | .error .noWord => true | .ok _ => false) = true := by decide
theorem test_decodeTableWord : decodeTableWord 8 0x4F = some (.jump 15) ∧ decodeTableWord 16 0x4F = none := by decide

/-! ### Kernel: S1, 95_test_vectors.md section 2.1 -/

theorem test_fromUnsignedSaturating :
    Kernel.fromUnsignedSaturating (-5) 8 = 0x00#8 ∧ Kernel.fromUnsignedSaturating 300 8 = 0xFF#8 ∧
    Kernel.fromUnsignedSaturating 254 8 = 0b11111110#8 ∧ Kernel.fromUnsignedSaturating 16 4 = 0b1111#4 ∧
    Kernel.fromUnsignedSaturating 9 4 = 0b1001#4 := by decide
theorem test_splitNibbles : Kernel.splitNibbles 0xA5#8 = (10#4, 5#4) := by decide
theorem test_decodeSignedNibble :
    Kernel.decodeSignedNibble 0b1101#4 = -5 ∧ Kernel.decodeSignedNibble 0b0111#4 = 7 ∧
    Kernel.decodeSignedNibble 0b1000#4 = 0 := by decide
theorem test_logic :
    Kernel.bitwiseAnd 0b11001100#8 0b10101010#8 = 0b10001000#8 ∧
    Kernel.bitwiseOr 0b11001100#8 0b10101010#8 = 0b11101110#8 ∧
    Kernel.bitwiseXor 0b11001100#8 0b10101010#8 = 0b01100110#8 ∧
    Kernel.bitwiseNot 0b11001100#8 = 0b00110011#8 := by decide

/-! ### Instructions -/

/-- V7 -/
theorem test_read : after (step (engineAt 0 0 0x03#8 [(3, 0x2A#8)])) (fun t => (t.acc, t.pc, t.cycle, t.ir)) =
    some (0x2A#8, 1#4, 8, some 0x03#8) := by decide
/-- V10 -/
theorem test_read_operand_15 : after (step (engineAt 2 5 0x0F#8 [])) (fun t => t) = some { faultedEngine with mem := (engineAt 2 5 0x0F#8 []).mem } := by
  decide
/-- V11 -/
theorem test_write : after (step (engineAt 4 0x7F#8 0x1E#8 [])) (fun t => (memRead t.mem .data 14, t.acc, t.pc)) =
    some (0x7F#8, 0x7F#8, 5#4) := by decide
/-- V13 -/
theorem test_write_operand_15 : after (step (engineAt 1 0x55#8 0x1F#8 [])) (fun t => (t.fault, t.mem.data)) =
    some (some ⟨.invalidDataIndex, 1, 0x1F#8⟩, []) := by decide
/-- S4 -/
theorem test_add_saturates : after (step (engineAt 0 250 0x20#8 [(0, 20#8)])) (fun t => t.acc) = some 255#8 := by decide
/-- V15, V16 -/
theorem test_add_exact : after (step (engineAt 0 100 0x20#8 [(0, 55#8)])) (fun t => t.acc) = some 155#8 ∧
    after (step (engineAt 0 200 0x20#8 [(0, 55#8)])) (fun t => t.acc) = some 255#8 := by decide
/-- S5 -/
theorem test_sub_saturates : after (step (engineAt 0 3 0x30#8 [(0, 10#8)])) (fun t => t.acc) = some 0#8 := by decide
/-- V20 -/
theorem test_sub_exact : after (step (engineAt 0 10 0x30#8 [(0, 3#8)])) (fun t => t.acc) = some 7#8 := by decide
/-- S6, V30 -/
theorem test_jump_15 : after (step (engineAt 0 0 0x4F#8 [])) (fun t => (t.pc, t.cycle, t.run)) = some (15#4, 8, .running) ∧
    stepReturns (engineAt 0 0 0x4F#8 []) = false := by decide
/-- V28 -/
theorem test_jump_to_itself : after (step (engineAt 3 0 0x43#8 [])) (fun t => t.pc) = some 3#4 ∧
    stepReturns (engineAt 3 0 0x43#8 []) = true := by decide
/-- S7, V31 -/
theorem test_jumpIfMax_not_taken : after (step (engineAt 2 100 0x55#8 [])) (fun t => t.pc) = some 3#4 ∧
    after (step (engineAt 2 254 0x57#8 [])) (fun t => t.pc) = some 3#4 := by decide
/-- S8 -/
theorem test_jumpIfMax_taken : after (step (engineAt 2 255 0x57#8 [])) (fun t => (t.pc, t.acc)) = some (7#4, 255#8) := by decide
/-- V34 -/
theorem test_jumpIfMin_taken : after (step (engineAt 1 0 0x6A#8 [])) (fun t => t.pc) = some 10#4 := by decide
/-- V35 -/
theorem test_jumpIfMin_not_taken : after (step (engineAt 1 1 0x6A#8 [])) (fun t => t.pc) = some 2#4 := by decide
/-- S9, V43 -/
theorem test_shiftRight : after (step (engineAt 0 129 0x7A#8 [])) (fun t => t.acc) = some 64#8 := by decide
/-- V41 -/
theorem test_shiftRight_operand_15 : after (step (engineAt 0 255 0x7F#8 [])) (fun t => (t.acc, t.fault)) = some (127#8, none) := by decide
/-- V44 -/
theorem test_reserved8 : after (step (engineAt 0 5 0x80#8 [])) (fun t => (t.acc, t.pc, t.cycle)) = some (5#8, 1#4, 8) := by decide
/-- V46 -/
theorem test_reserved15_at_the_end : after (step (engineAt 14 0 0xFF#8 [])) (fun t => (t.pc, t.run)) = some (15#4, .running) ∧
    stepReturns (engineAt 14 0 0xFF#8 []) = false := by decide
/-- R77: a model that takes the other policy stops with a refusal. -/
theorem test_reserved_refused (s : State) : reservedOperation .refuse s = .refused .reservedOpcode := rfl

/-! ### The step: V1 to V6 -/

theorem test_halt : after (step (engine 15 9 [] [])) (fun t => t) = some { engine 15 9 [] [] with run := .halted } := by decide
theorem test_step_halted : after (step { engine 15 9 [] [] with run := .halted }) (fun t => t) =
    some { engine 15 9 [] [] with run := .halted } := by decide
theorem test_step_faulted : after (step faultedEngine) (fun t => t) = some faultedEngine := by decide
/-- V6 -/
theorem test_first_fetch : after (step (construct ⟨[(0, 0x80#8)], []⟩)) (fun t => (t.ir, t.pc, t.cycle)) =
    some (some 0x80#8, 1#4, 1) := by decide
theorem test_withFetchWord_from_reset : after (step (State.reset.withFetchWord 8 0x4F)) (fun t => (t.pc, t.ir)) =
    some (15#4, some 0x4F#8) := by decide
theorem test_withFetchWord_from_a_stop : after (step (faultedEngine.withFetchWord 8 0x45)) (fun t => (t.pc, t.cycle)) =
    some (5#4, 1) := by decide

/-! ### The host port: V47 to V50, and the refusals of R79 -/

theorem test_readBit : reply (hostAct (.readBit .data 2 0) (engine 0 0 [] [(2, 0b10000000#8)])) = some (.bit true) ∧
    reply (hostAct (.readBit .data 2 7) (engine 0 0 [] [(2, 0b10000000#8)])) = some (.bit false) := by decide
theorem test_writeBit : wordAfter (hostAct (.writeBit .code 0 1 true) (engine 0 0 [] [])) .code 0 = some 0x40#8 := by decide
/-- V50, with `s[k] = k + 1` -/
theorem test_bulkLoad :
    bulkDump (bulkLoad ((List.range 31).map fun k => BitVec.ofNat 8 (k + 1)) Memory.unloaded) =
      (List.range 30).map fun k => BitVec.ofNat 8 (k + 1) := by decide
theorem test_request_refused : reply (hostRequest (.readWord .data 15) State.reset) = none ∧
    reply (hostRequest (.readWord .data 14) State.reset) = some (.word 0) := by decide

/-! ### Assembler and image -/

/-- P2 -/
theorem test_assemble :
    assemble [⟨none, some (.instr .read (some (.num 0)))⟩,
      ⟨some "loop", some (.instr .jumpIfMin (some (.label "end")))⟩, ⟨none, some (.instr .sub (some (.num 1)))⟩,
      ⟨none, some (.instr .write (some (.num 0)))⟩, ⟨none, some (.instr .jump (some (.label "loop")))⟩,
      ⟨some "end", some .halt⟩] = some [0x00#8, 0x65#8, 0x31#8, 0x10#8, 0x41#8, 0x4F#8] := by decide
/-- R39: the first character is the most significant bit. -/
theorem test_glyphWord : glyphWord ['.', '*', '.', '.', '*', '*', '*', '*'] = some 0x4F#8 ∧ glyphWord ['*'] = none := by decide

/-! ### Witnesses: a state and operands that meet the hypotheses of each statement -/

theorem witness_AssemblerEncodesMnemonics :
    (15 < 16) ∧ (16 ≤ 16) ∧ Mnemonic.read ≠ .shiftRight := by decide
theorem witness_FromUnsignedSaturates :
    ((0 : Int) ≤ 0) ∧ ((2 : Int) ^ 8 - 1 ≤ 255) ∧ ((0 : Int) ≤ 255 ∧ (255 : Int) ≤ 2 ^ 8 - 1) := by decide
theorem witness_SignedNibble : (0b1001#4).toNat % 8 ≠ 0 := by decide
theorem witness_LogicIsElementwise : 7 < 8 ∧ [true].length ≠ ([] : List Bool).length := by decide
theorem witness_Shr1 : 6 < 7 := by decide
theorem witness_CanonicalMemories :
    (Memory.mk [(0, 1#8)] [(14, 2#8)]).wf ∧ ∀ space i,
      memRead (Memory.mk [(0, 1#8)] [(14, 2#8)]) space i = memRead (Memory.mk [(0, 1#8)] [(14, 2#8)]) space i :=
  ⟨by decide, fun _ _ => rfl⟩
theorem witness_MemoryOperations :
    (Memory.mk [(0, 1#8)] [(14, 2#8)]).wf ∧
    loadImage [['*', '.', '.', '.', '.', '.', '.', '.']] (Memory.mk [(0, 1#8)] [(14, 2#8)]) =
      some (Memory.mk [(0, 128#8)] [(14, 2#8)]) := by decide
theorem witness_OutOfRangeRequests :
    (RawRequest.readBit .code 14 8).wf = false ∧ (RawRequest.readBit .code 14 7).wf = true := by decide
/-- `fetches`, at the first and at the last index of Code. -/
theorem witness_fetches : fetches (engineAt 0 0 0x03#8 []) 0x03#8 ∧ fetches (engineAt 14 0 0xFF#8 []) 0xFF#8 := by decide
theorem witness_SentinelHalts : (engine 15 9 [] []).run = .running ∧ (engine 15 9 [] []).pc = 15#4 := by decide
theorem witness_StoppedEngine :
    ({ engine 15 9 [] [] with run := .halted } : State).run ≠ .running ∧ faultedEngine.run ≠ .running := by decide
/-- `step s = next t` and the engine not faulted, at a taken and an untaken transfer: the clauses of the rules
on `pc`, on the count and on the continuation signal. -/
theorem witness_executed_taken :
    fetches (engineAt 2 255 0x57#8 []) 0x57#8 ∧
    step (engineAt 2 255 0x57#8 []) = .next { engineAt 2 255 0x57#8 [] with pc := 7, cycle := 8, ir := some 0x57#8 } ∧
    ({ engineAt 2 255 0x57#8 [] with pc := 7, cycle := 8, ir := some 0x57#8 } : State).run ≠ .faulted :=
  ⟨by decide, rfl, by decide⟩
theorem witness_executed_untaken :
    fetches (engineAt 14 254 0x57#8 []) 0x57#8 ∧
    step (engineAt 14 254 0x57#8 []) = .next { engineAt 14 254 0x57#8 [] with pc := 15, cycle := 8, ir := some 0x57#8 } ∧
    (engineAt 14 254 0x57#8 []).pc ≠ 15#4 :=
  ⟨by decide, rfl, by decide⟩
/-- The other ends of a step: halting, stopped, faulting. -/
theorem witness_not_executed :
    step (engine 15 9 [] []) = .next { engine 15 9 [] [] with run := .halted } ∧
    step faultedEngine = .next faultedEngine ∧ step (engineAt 2 5 0x0F#8 []) = .next faultedEngine :=
  ⟨rfl, rfl, rfl⟩
theorem witness_run_of_two_steps :
    Host.Core.run Sys2Proof.core 2 (engineAt 14 254 0x57#8 []) =
      .next { engineAt 14 254 0x57#8 [] with pc := 15, cycle := 8, ir := some 0x57#8, run := .halted } := rfl
theorem witness_OnlyWriteChangesData :
    step (engineAt 4 0x7F#8 0x1E#8 []) =
      .next { engineAt 4 0x7F#8 0x1E#8 [(14, 0x7F#8)] with pc := 5, cycle := 8, ir := some 0x1E#8 } ∧
    memRead ({ engineAt 4 0x7F#8 0x1E#8 [(14, 0x7F#8)] with pc := 5, cycle := 8, ir := some 0x1E#8 } : State).mem .data 14 ≠
      memRead (engineAt 4 0x7F#8 0x1E#8 []).mem .data 14 :=
  ⟨rfl, by decide⟩
theorem witness_OnlyFourOpcodesWriteAcc :
    step (engineAt 0 255 0x7F#8 []) = .next { engineAt 0 127 0x7F#8 [] with pc := 1, cycle := 8, ir := some 0x7F#8 } ∧
    (engineAt 0 127 0x7F#8 []).acc ≠ (engineAt 0 255 0x7F#8 []).acc :=
  ⟨rfl, by decide⟩
theorem witness_LastInstructionThenHalt :
    fetches (engineAt 0 0 0x4F#8 []) 0x4F#8 ∧
    step (engineAt 0 0 0x4F#8 []) = .next { engineAt 0 0 0x4F#8 [] with pc := 15, cycle := 8, ir := some 0x4F#8 } ∧
    ({ engineAt 0 0 0x4F#8 [] with pc := 15, cycle := 8, ir := some 0x4F#8 } : State).run ≠ .faulted :=
  ⟨by decide, rfl, by decide⟩
/-- Two states that differ in memory outside the Words the step names. -/
theorem witness_StepDependsOnTheWordsItNames :
    fetches (engineAt 0 1 0x23#8 [(3, 4#8)]) 0x23#8 ∧ fetches (engine 0 1 [(0, 0x23#8), (1, 9#8)] [(2, 8#8), (3, 4#8)]) 0x23#8 ∧
    sameEngine (engineAt 0 1 0x23#8 [(3, 4#8)]) (engine 0 1 [(0, 0x23#8), (1, 9#8)] [(2, 8#8), (3, 4#8)]) ∧
    memRead (engineAt 0 1 0x23#8 [(3, 4#8)]).mem .data 3 =
      memRead (engine 0 1 [(0, 0x23#8), (1, 9#8)] [(2, 8#8), (3, 4#8)]).mem .data 3 ∧
    after (step (engineAt 0 1 0x23#8 [(3, 4#8)])) (fun t => t.acc) = some 5#8 ∧
    after (step (engine 0 1 [(0, 0x23#8), (1, 9#8)] [(2, 8#8), (3, 4#8)])) (fun t => t.acc) = some 5#8 := by decide
/-- The data operands of `read`, `write`, `add` and `sub`: the ends of the valid range, and 15. -/
theorem witness_data_operand :
    storageIndex 0#4 = some 0 ∧ storageIndex 14#4 = some 14 ∧ storageIndex 15#4 = none := by decide
theorem witness_ReservedOpcodes :
    Instr.reserved11 15 ∈ [Instr.reserved8 15, .reserved9 15, .reserved10 15, .reserved11 15, .reserved12 15,
      .reserved13 15, .reserved14 15, .reserved15 15] := by decide
theorem witness_FaultEntry : fetches (engineAt 2 5 0x0F#8 []) 0x0F#8 ∧ faultingWord 0x0F#8 = true := by decide
theorem engine_inv : (engineAt 2 5 0x0F#8 []).Inv := ⟨by decide, by decide, by decide, by decide, by decide⟩
theorem faultedEngine_inv : faultedEngine.Inv := ⟨by decide, by decide, by decide, by decide, by decide⟩
theorem witness_FaultRecordIsKept :
    faultedEngine.Inv ∧ faultedEngine.fault ≠ none ∧
    hostAct (.writeWord .code 2 0) faultedEngine = .next ({ faultedEngine with mem := ⟨[], []⟩ }, .nothing) ∧
    faultedEngine.fault ≠ (engineAt 2 5 0x0F#8 []).fault :=
  ⟨faultedEngine_inv, by decide, rfl, by decide⟩
theorem witness_OnlyConstruction :
    faultedEngine.run ≠ .running ∧
    hostAct (.construct ⟨[], []⟩) faultedEngine = .next (construct ⟨[], []⟩, .nothing) :=
  ⟨by decide, rfl⟩
theorem witness_StepKeepsTheInvariant :
    (engineAt 2 5 0x0F#8 []).Inv ∧ step (engineAt 2 5 0x0F#8 []) = .next faultedEngine := ⟨engine_inv, rfl⟩
theorem witness_HostActionsKeepTheInvariant :
    (HostAction.bulkLoad [1#8] ⟨[], []⟩).wf ∧ faultedEngine.Inv ∧
    hostAct (.bulkLoad [1#8] ⟨[], []⟩) faultedEngine = .next ({ faultedEngine with mem := ⟨[(0, 1#8)], []⟩ }, .nothing) :=
  ⟨by decide, faultedEngine_inv, rfl⟩
theorem witness_CodeWithoutFaultingWords :
    (∀ i, faultingWord (memRead (engineAt 0 5 0x80#8 []).mem .code i) = false) ∧ ¬(engineAt 0 5 0x80#8 []).endedInFault ∧
    Host.Core.run Sys2Proof.core 1 (engineAt 0 5 0x80#8 []) = .next { engineAt 0 5 0x80#8 [] with pc := 1, cycle := 8 } :=
  ⟨by decide, by decide, rfl⟩
theorem witness_PlacedWord : (engineAt 14 5 0x80#8 []).run = .running ∧ (engineAt 14 5 0x80#8 []).pc ≠ 15#4 := by decide

end Sys2Proof.Tests
end

section
/-! PROOFS. The family 10_state.md: what a step and a host action can do to each element of the state. First the
inversion lemmas in terms of the fetched Word, then the statements. -/

namespace Sys2Proof.Machine

/-! ### The fetched Word -/

/-- A Word is the encoding of what it decodes to (R41, R60). -/
@[simp] theorem encodeWord_decodeWord (w : Word) : encodeWord (decodeWord w) = w := by
  rw [encodeWord, opcodeOf_decodeWord, operandOf_decodeWord]
  exact nibbles_append w

/-- R44, R61: the faulting Words are the data instructions with operand 15. -/
theorem indexesBeyondData_decodeWord (w : Word) :
    indexesBeyondData (decodeWord w) ↔ faultingWord w = true := by
  revert w; decide

/-- The opcode number of a decoded Word. -/
theorem toNat_opcodeOf_decodeWord (w : Word) : (opcodeOf (decodeWord w)).toNat = w.toNat / 16 := by
  rw [opcodeOf_decodeWord, toNat_highNibble]

/-! ### What a step can do, by the fetched Word -/

/-- A step that fetches `w` enters the fault if `w` is a faulting Word, and executes `w` otherwise. -/
theorem step_cases_of_fetches {s t : State} {w : Word} (hf : fetches s w) (h : step s = .next t) :
    (faultingWord w = true ∧ t = raiseFault .invalidDataIndex w (recordFetch w s)) ∨
    (faultingWord w = false ∧ Executed (decodeWord w) (recordFetch w s) t) := by
  obtain ⟨u, hu, hc⟩ := exec_cases (decodeWord w) (recordFetch w s)
  rw [step_of_fetches hf, hu] at h
  cases h
  simpa [indexesBeyondData_decodeWord] using hc

/-- An engine has stopped, stands at the sentinel or fetches some Word. -/
theorem stopped_or_sentinel_or_fetches (s : State) :
    s.run ≠ .running ∨ (s.run = .running ∧ s.pc = Config.haltSentinel) ∨ ∃ w, fetches s w := by
  by_cases hr : s.run = .running
  · by_cases hp : s.pc = Config.haltSentinel
    · exact .inr (.inl ⟨hr, hp⟩)
    · exact .inr (.inr (fetches_of_running hr hp))
  · exact .inl hr

/-- The inversion of a step: nothing changed, halted, fault entry, or the fetched Word executed. -/
theorem step_next_cases {s t : State} (h : step s = .next t) :
    (s.run ≠ .running ∧ t = s) ∨
    (s.run = .running ∧ s.pc = Config.haltSentinel ∧ t = enterHalted s) ∨
    ∃ w, fetches s w ∧
      ((faultingWord w = true ∧ t = raiseFault .invalidDataIndex w (recordFetch w s)) ∨
       (faultingWord w = false ∧ Executed (decodeWord w) (recordFetch w s) t)) := by
  rcases stopped_or_sentinel_or_fetches s with hr | ⟨hr, hp⟩ | ⟨w, hf⟩
  · rw [step_of_stopped s hr] at h
    cases h
    exact .inl ⟨hr, rfl⟩
  · rw [step_at_sentinel s hr hp] at h
    cases h
    exact .inr (.inl ⟨hr, hp, rfl⟩)
  · exact .inr (.inr ⟨w, hf, step_cases_of_fetches hf h⟩)

/-- An executed instruction keeps the canonical form of memory. -/
theorem Executed.memory_wf {i : Instr} {s t : State} (he : Executed i s t) (hm : s.mem.wf) : t.mem.wf := by
  rcases he.mem with h | ⟨k, -, -, h⟩
  · rwa [h]
  · rw [h]; exact memWrite_wf _ _ _ _ hm

/-! ### The invariant -/

/-- A state that meets the invariant and is not `Faulted` has no record. -/
theorem State.Inv.fault_eq_none {s : State} (hi : s.Inv) (hr : s.run ≠ .faulted) : s.fault = none := by
  simpa using mt hi.record_iff_faulted.mp hr

theorem construct_inv {m : Memory} (hm : m.wf) : (construct m).Inv where
  memory_canonical := hm
  record_iff_faulted := by simp
  halted_at_sentinel := by simp
  record_precise := by simp
  unfetched_fresh := by simp

/-- R58: halting at the sentinel keeps the invariant. A fresh engine has `pc = 0`, so this one has fetched. -/
theorem enterHalted_inv {s : State} (hi : s.Inv) (hr : s.run = .running) (hp : s.pc = Config.haltSentinel) :
    (enterHalted s).Inv where
  memory_canonical := hi.memory_canonical
  record_iff_faulted := by simp [hi.fault_eq_none (by simp [hr])]
  halted_at_sentinel _ := hp
  record_precise := by simp [hi.fault_eq_none (by simp [hr])]
  unfetched_fresh hir := by
    obtain ⟨-, hpc, -⟩ := hi.unfetched_fresh hir
    exact absurd (hp.symm.trans hpc) (by decide)

/-- R80: fault entry keeps the invariant. -/
theorem raiseFault_inv {s : State} {w : Word} (hi : s.Inv) (hf : fetches s w) (hw : faultingWord w = true) :
    (raiseFault .invalidDataIndex w (recordFetch w s)).Inv where
  memory_canonical := hi.memory_canonical
  record_iff_faulted := by simp
  halted_at_sentinel := by simp
  record_precise := by simpa [hw] using fetches_pc_ne hf
  unfetched_fresh := by simp

/-- An executed instruction leaves the engine `Running` without a record, so it keeps the invariant. -/
theorem Executed.inv {i : Instr} {s t : State} {w : Word} (he : Executed i (recordFetch w s) t) (hi : s.Inv)
    (hr : s.run = .running) : t.Inv := by
  have htr : t.run = .running := he.run.trans hr
  have htf : t.fault = none := he.fault.trans (hi.fault_eq_none (by simp [hr]))
  have htir : t.ir = some w := he.ir
  exact
    { memory_canonical := he.memory_wf hi.memory_canonical
      record_iff_faulted := by simp [htf, htr]
      halted_at_sentinel := by simp [htr]
      record_precise := by simp [htf]
      unfetched_fresh := by simp [htir] }

/-- Settles O56: each of the four things a step can do keeps the invariant. -/
theorem stepKeepsTheInvariant : Obligations.StepKeepsTheInvariant := by
  intro s t hi h
  rcases step_next_cases h with ⟨-, rfl⟩ | ⟨hr, hp, rfl⟩ | ⟨w, hf, ⟨hw, rfl⟩ | ⟨-, he⟩⟩
  · exact hi
  · exact enterHalted_inv hi hr hp
  · exact raiseFault_inv hi hf hw
  · exact he.inv hi hf.1

/-- Settles O55: `State.reset` is a fresh engine too. -/
theorem freshEngineMeetsTheInvariant : Obligations.FreshEngineMeetsTheInvariant := by
  refine ⟨?_, fun m hm => construct_inv hm⟩
  rw [reset_eq_construct]
  exact construct_inv reset_memory_wf

/-! ### The run state, `ir`, `acc` and the record under a step -/

/-- R14: the run state a fetched Word leaves. -/
theorem run_of_fetches {s t : State} {w : Word} (hf : fetches s w) (h : step s = .next t) :
    t.run = if faultingWord w then .faulted else .running := by
  rcases step_cases_of_fetches hf h with ⟨hw, rfl⟩ | ⟨hw, he⟩
  · simp [hw]
  · simpa [hw, hf.1] using he.run

/-- R16: the fetched Word is recorded, whether it faults or executes. -/
theorem ir_of_fetches {s t : State} {w : Word} (hf : fetches s w) (h : step s = .next t) : t.ir = some w := by
  rcases step_cases_of_fetches hf h with ⟨-, rfl⟩ | ⟨-, he⟩
  · rfl
  · exact he.ir

/-- R17: a step that changes the record fetches a faulting Word. -/
theorem fetches_faultingWord_of_fault_ne {s t : State} (h : step s = .next t) (hne : t.fault ≠ s.fault) :
    ∃ w, fetches s w ∧ faultingWord w = true := by
  rcases step_next_cases h with ⟨-, rfl⟩ | ⟨-, -, rfl⟩ | ⟨w, hf, ⟨hw, -⟩ | ⟨-, he⟩⟩
  · exact absurd rfl hne
  · exact absurd rfl hne
  · exact ⟨w, hf, hw⟩
  · exact absurd he.fault hne

/-- Settles O29: by what the engine does next (stopped, at the sentinel, fetching). -/
theorem runStateTransitions : Obligations.RunStateTransitions := by
  refine ⟨construct_run, fun s t h => ⟨fun hr => ?_, fun hr hp => ?_, fun w hf => run_of_fetches hf h⟩⟩
  · rw [step_of_stopped s hr] at h
    cases h; rfl
  · rw [step_at_sentinel s hr hp] at h
    cases h; rfl

/-- Settles O30: a fetching step records the Word, and a step that does not fetch changes at most `run`. -/
theorem irHoldsTheLastFetchedWord : Obligations.IrHoldsTheLastFetchedWord := by
  refine ⟨fun s t h => ⟨fun w hf => ?_, fun hn => ?_⟩, fun m => ⟨rfl, rfl, rfl⟩⟩
  · have hir := ir_of_fetches hf h
    simp [currentOpcode, currentOperand, hir, Kernel.splitNibbles]
  · rcases step_next_cases h with ⟨-, rfl⟩ | ⟨-, -, rfl⟩ | ⟨w, hf, -⟩
    · rfl
    · rfl
    · exact absurd hn (not_or.mpr ⟨not_not.mpr hf.1, fetches_pc_ne hf⟩)

/-- Settles O34: only the execution of a Word with one of these opcodes can write `acc`. -/
theorem onlyFourOpcodesWriteAcc : Obligations.OnlyFourOpcodesWriteAcc := by
  intro s t h hne
  rcases step_next_cases h with ⟨-, rfl⟩ | ⟨-, -, rfl⟩ | ⟨w, hf, ⟨-, rfl⟩ | ⟨-, he⟩⟩
  · exact absurd rfl hne
  · exact absurd rfl hne
  · exact absurd rfl hne
  · have hop := he.acc.resolve_left hne
    rw [toNat_opcodeOf_decodeWord] at hop
    exact ⟨w, hf, hop⟩

/-! ### What an instruction reads -/

/-- The elements of two states that an instruction can read agree: all but `cycle`, `ir` and `fault`. -/
structure ReadsAlike (s u : State) : Prop where
  acc : u.acc = s.acc
  pc : u.pc = s.pc
  run : u.run = s.run
  mem : u.mem = s.mem

theorem ReadsAlike.setAcc {s u : State} (h : ReadsAlike s u) (v : Word) : ReadsAlike (setAcc v s) (setAcc v u) :=
  ⟨rfl, h.pc, h.run, h.mem⟩

theorem ReadsAlike.storeData {s u : State} (h : ReadsAlike s u) (i : Index) (v : Word) :
    ReadsAlike (storeData i v s) (storeData i v u) :=
  ⟨h.acc, h.pc, h.run, by simp [h.mem]⟩

theorem ReadsAlike.retire {s u : State} (h : ReadsAlike s u) (taken : Bool) (target : Address) :
    ReadsAlike (retire taken target s) (retire taken target u) :=
  ⟨h.acc, by simp [h.pc], h.run, h.mem⟩

theorem ReadsAlike.advance {s u : State} (h : ReadsAlike s u) : ReadsAlike (advance s) (advance u) :=
  h.retire false 0

theorem ReadsAlike.raiseFault {s u : State} (h : ReadsAlike s u) (cause : FaultCause) (w : Word) :
    ReadsAlike (raiseFault cause w s) (raiseFault cause w u) :=
  ⟨h.acc, h.pc, rfl, h.mem⟩

theorem ReadsAlike.recordFetch {s u : State} (h : ReadsAlike s u) (w : Word) :
    ReadsAlike (recordFetch w s) (recordFetch w u) :=
  ⟨h.acc, h.pc, h.run, h.mem⟩

theorem ReadsAlike.enterHalted {s u : State} (h : ReadsAlike s u) : ReadsAlike (enterHalted s) (enterHalted u) :=
  ⟨h.acc, h.pc, rfl, h.mem⟩

theorem ReadsAlike.dataOperand {s u : State} (h : ReadsAlike s u) (i : Index) :
    dataOperand u i = dataOperand s i := by
  simp [Machine.dataOperand, h.mem]

theorem ReadsAlike.fetches {s u : State} {w : Word} (h : ReadsAlike s u) (hf : fetches s w) : fetches u w := by
  obtain ⟨hr, i, hi, hw⟩ := hf
  exact ⟨h.run.trans hr, i, by rw [h.pc, hi], by rw [h.mem, hw]⟩

/-- Both results are next states, and these read alike. -/
def NextReadsAlike (a b : Result) : Prop := ∃ t v, a = .next t ∧ b = .next v ∧ ReadsAlike t v

theorem ReadsAlike.next {t v : State} (h : ReadsAlike t v) : NextReadsAlike (.next t) (.next v) :=
  ⟨t, v, rfl, rfl, h⟩

theorem ReadsAlike.withDataIndex {s u : State} (h : ReadsAlike s u) (w : Word) (n : Address)
    {effect effect' : Index → State} (he : ∀ i, ReadsAlike (effect i) (effect' i)) :
    NextReadsAlike (withDataIndex w n s effect) (withDataIndex w n u effect') := by
  cases hn : storageIndex n with
  | none =>
    rw [(storageIndex_eq_none n).mp hn, withDataIndex_sentinel, withDataIndex_sentinel]
    exact (h.raiseFault _ w).next
  | some i =>
    rw [withDataIndex_some _ _ _ _ i hn, withDataIndex_some _ _ _ _ i hn]
    exact (he i).next

/-- No instruction reads `cycle`, `ir` or `fault`. -/
theorem ReadsAlike.exec {s u : State} (h : ReadsAlike s u) (i : Instr) :
    NextReadsAlike (exec i s) (exec i u) := by
  cases i with
  | read n => exact h.withDataIndex _ n fun k => by rw [h.dataOperand]; exact (h.setAcc _).advance
  | write n => exact h.withDataIndex _ n fun k => by rw [h.acc]; exact (h.storeData k _).advance
  | add n => exact h.withDataIndex _ n fun k => by rw [h.dataOperand, h.acc]; exact (h.setAcc _).advance
  | sub n => exact h.withDataIndex _ n fun k => by rw [h.dataOperand, h.acc]; exact (h.setAcc _).advance
  | jump t => exact (h.retire true t).next
  | jumpIfMax t =>
    have hc : accIsMax u = accIsMax s := by rw [accIsMax, accIsMax, h.acc]
    exact ReadsAlike.next (by rw [hc]; exact h.retire _ t)
  | jumpIfMin t =>
    have hc : accIsMin u = accIsMin s := by rw [accIsMin, accIsMin, h.acc]
    exact ReadsAlike.next (by rw [hc]; exact h.retire _ t)
  | shiftRight x => exact ReadsAlike.next (by rw [h.acc]; exact (h.setAcc _).advance)
  | _ => exact h.advance.next

/-- Neither does a step, nor what it returns. -/
theorem ReadsAlike.step {s u : State} (h : ReadsAlike s u) :
    NextReadsAlike (step s) (step u) ∧ stepReturns u = stepReturns s := by
  rcases stopped_or_sentinel_or_fetches s with hr | ⟨hr, hp⟩ | ⟨w, hf⟩
  · have hr' : u.run ≠ .running := h.run ▸ hr
    rw [step_of_stopped s hr, step_of_stopped u hr', stepReturns_of_stopped hr, stepReturns_of_stopped hr']
    exact ⟨h.next, rfl⟩
  · have hr' := h.run.trans hr
    have hp' := h.pc.trans hp
    rw [step_at_sentinel s hr hp, step_at_sentinel u hr' hp', stepReturns_at_sentinel hr hp,
      stepReturns_at_sentinel hr' hp']
    exact ⟨h.enterHalted.next, rfl⟩
  · have hf' := h.fetches hf
    have hx : NextReadsAlike (Machine.step s) (Machine.step u) := by
      rw [step_of_fetches hf, step_of_fetches hf']
      exact (h.recordFetch w).exec _
    obtain ⟨t, v, ht, hv, hread⟩ := hx
    exact ⟨⟨t, v, ht, hv, hread⟩, by
      rw [stepReturns_of_fetches hf ht, stepReturns_of_fetches hf' hv, hread.run, hread.pc]⟩

/-- Settles O31: the two states read alike, so their steps do. -/
theorem cycleIrAndFaultAreNeverRead : Obligations.CycleIrAndFaultAreNeverRead := by
  intro s t cycle ir fault h
  have hsu : ReadsAlike s { s with cycle := cycle, ir := ir, fault := fault } := ⟨rfl, rfl, rfl, rfl⟩
  obtain ⟨⟨t', u, ht', hu, hacc, hpc, hrun, hmem⟩, hret⟩ := hsu.step
  rw [h] at ht'
  cases ht'
  exact ⟨u, hu, hacc, hpc, hrun, hmem, hret⟩

/-! ### What a host action can do -/

/-- What `hostAct` answers to any action but a step: construction gives a fresh engine, and every other action
leaves the engine and replaces at most the memory. -/
theorem hostAct_cases (a : HostAction) (s : State) :
    a = .step ∨ (∃ m, a = .construct m ∧ hostAct a s = .next (construct m, .nothing)) ∨
    ∃ m reply, hostAct a s = .next ({ s with mem := m }, reply) ∧
      (m = s.mem ∨ (∃ space i w, a = .writeWord space i w ∧ m = memWrite s.mem space i w) ∨
        (∃ space i k b, a = .writeBit space i k b ∧ m = memWriteBit s.mem space i k b) ∨
        ∃ ws unreached, a = .bulkLoad ws unreached ∧ m = bulkLoad ws unreached) := by
  cases a with
  | step => exact .inl rfl
  | construct m => exact .inr (.inl ⟨m, rfl, rfl⟩)
  | writeWord space i w => exact .inr (.inr ⟨_, _, rfl, .inr (.inl ⟨space, i, w, rfl, rfl⟩)⟩)
  | writeBit space i k b => exact .inr (.inr ⟨_, _, rfl, .inr (.inr (.inl ⟨space, i, k, b, rfl, rfl⟩))⟩)
  | bulkLoad ws unreached => exact .inr (.inr ⟨_, _, rfl, .inr (.inr (.inr ⟨ws, unreached, rfl, rfl⟩))⟩)
  | _ => exact .inr (.inr ⟨s.mem, _, rfl, .inl rfl⟩)

/-- A host's step replies with the continuation signal. -/
theorem hostAct_step {s t : State} (h : step s = .next t) :
    hostAct .step s = .next (t, .signal (stepReturns s)) := by
  simp [hostAct, h]

/-- From a stopped engine, every host action but construction keeps the engine. -/
theorem sameEngine_of_hostAct_of_stopped {a : HostAction} {s t : State} {reply : HostReply}
    (hr : s.run ≠ .running) (h : hostAct a s = .next (t, reply)) :
    sameEngine s t ∨ ∃ m, a = .construct m ∧ t = construct m := by
  rcases hostAct_cases a s with rfl | ⟨m, rfl, ha⟩ | ⟨m, r, ha, -⟩
  · rw [hostAct_step (step_of_stopped s hr)] at h
    cases h
    exact .inl ⟨rfl, rfl, rfl, rfl, rfl, rfl⟩
  · rw [ha] at h
    cases h
    exact .inr ⟨m, rfl, rfl⟩
  · rw [ha] at h
    cases h
    exact .inl ⟨rfl, rfl, rfl, rfl, rfl, rfl⟩

/-- Settles O50: under the invariant a record stands only in `Faulted`, which is a stop. -/
theorem faultRecordIsKept : Obligations.FaultRecordIsKept := by
  refine ⟨fun s t h hne => ?_, fun a s t reply hi hfault h => ?_, construct_fault⟩
  · obtain ⟨w, hf, hw⟩ := fetches_faultingWord_of_fault_ne h hne
    exact ⟨hf.1, by rw [run_of_fetches hf h, if_pos hw], w, hf, hw⟩
  · have hr : s.run = .faulted := by
      by_contra hr
      exact hfault (hi.fault_eq_none hr)
    rcases sameEngine_of_hostAct_of_stopped (by simp [hr]) h with ⟨-, -, -, -, -, hsame⟩ | ⟨m, ha, -⟩
    · exact .inl hsame
    · exact .inr ⟨m, ha⟩

/-- Settles O52: by the cases of `hostAct`. -/
theorem whatTheHostCanChange : Obligations.WhatTheHostCanChange := by
  intro a s
  rcases hostAct_cases a s with rfl | ⟨m, rfl, ha⟩ | ⟨m, reply, ha, hm⟩
  · obtain ⟨t, ht, -⟩ := step_cases s
    exact ⟨t, _, hostAct_step ht, .inl rfl, .inl rfl⟩
  · exact ⟨_, _, ha, .inr (.inl ⟨m, rfl⟩), .inr (.inl ⟨m, rfl⟩)⟩
  · refine ⟨_, reply, ha, .inr (.inr ⟨rfl, rfl, rfl, rfl, rfl, rfl⟩), .inr (.inr ?_)⟩
    rcases hm with rfl | ⟨space, i, w, rfl, -⟩ | ⟨space, i, k, b, rfl, -⟩ | ⟨ws, unreached, rfl, -⟩
    · exact .inr (.inr (.inr fun _ _ => rfl))
    · exact .inl ⟨space, i, w, rfl⟩
    · exact .inr (.inl ⟨space, i, k, b, rfl⟩)
    · exact .inr (.inr (.inl ⟨ws, unreached, rfl⟩))

/-- Settles O53: `hostAct` answers each accessor with the element and the state it was given. -/
theorem accessorsShowTheState : Obligations.AccessorsShowTheState :=
  fun _ => ⟨rfl, rfl, rfl, rfl, rfl, rfl, rfl⟩

/-- Settles O54: `construct` is `State.reset` with the given memory put in. -/
theorem resetValues : Obligations.ResetValues :=
  ⟨fun m _ => ⟨rfl, construct_acc m, construct_pc m, construct_cycle m, construct_run m, construct_ir m,
    construct_fault m, construct_mem m⟩, fun _ => ⟨rfl, rfl, rfl, rfl, rfl, rfl⟩⟩

end Sys2Proof.Machine
end

section
/-! PROOFS. The family 20_memory.md: the two address spaces, the host's ways into them, and what a step reads and
writes there. Each statement stands after the laws it is made of. -/

namespace Sys2Proof.Kernel

/-- R36: a bit write sets its own bit and no other bit of the Word. -/
theorem sourceBit_withSourceBit (w : Word) (k : BitIndex) (b : Bool) (k' : BitIndex) :
    sourceBit (withSourceBit w k b) k' = if k' = k then b else sourceBit w k' := by
  have hmask : (1#8 <<< (7 - k.val)).getLsbD (7 - k'.val) = decide (k' = k) := by
    revert k k'; decide
  have hlt : 7 - k'.val < 8 := by omega
  cases b with
  | false =>
    simp only [sourceBit, withSourceBit, Bool.false_eq_true, if_false, BitVec.getLsbD_and,
      BitVec.getLsbD_not, hmask]
    by_cases hk : k' = k <;> simp [hk, hlt]
  | true =>
    simp only [sourceBit, withSourceBit, if_true, BitVec.getLsbD_or, hmask]
    by_cases hk : k' = k <;> simp [hk]

/-- R50: the value of `sat8`, by the three branches of the saturating encoder. -/
theorem toNat_sat8 (x : Int) : (sat8 x).toNat = min x.toNat 255 := by
  unfold sat8 fromUnsignedSaturating
  split
  · have hx : x.toNat = 0 := by omega
    simp [hx]
  · split
    · rw [BitVec.toNat_allOnes]; omega
    · rw [BitVec.toNat_ofNat]; omega

end Sys2Proof.Kernel

namespace Sys2Proof.Machine

/-! ### Words and bits -/

/-- Read after write (R21, R23, R27): the written Word at its place, and every other Word as before. -/
theorem memRead_memWrite (m : Memory) (space : Space) (i : Index) (w : Word) (space' : Space) (j : Index) :
    memRead (memWrite m space i w) space' j = if space' = space ∧ j = i then w else memRead m space' j := by
  cases space <;> cases space' <;> simp [memRead, memWrite, Memory.cells, Cells.read_write, Fin.ext_iff]

@[simp] theorem memRead_memWrite_same (m : Memory) (space : Space) (i : Index) (w : Word) :
    memRead (memWrite m space i w) space i = w := by
  simp [memRead_memWrite]

theorem memRead_memWrite_of_ne (m : Memory) {space space' : Space} {i j : Index} (w : Word)
    (h : space' ≠ space ∨ j ≠ i) : memRead (memWrite m space i w) space' j = memRead m space' j := by
  rw [memRead_memWrite, if_neg (not_and_or.mpr h)]

/-- Settles O14: it is the read law of a Word write. -/
theorem readAfterWriteInEitherSpace : Obligations.ReadAfterWriteInEitherSpace := memRead_memWrite

/-- Canonical spaces with the same 15 Words are equal: beyond them both read as unlisted. -/
theorem Cells.ext_of_wf_of_index {c d : Cells} (hc : Cells.wf c) (hd : Cells.wf d)
    (h : ∀ i : Index, Cells.read c i.val = Cells.read d i.val) : c = d := by
  refine Cells.ext_of_wf c d hc hd fun a => ?_
  by_cases ha : a < 15
  · exact h ⟨a, ha⟩
  · rw [Cells.read_beyond c hc a (by omega), Cells.read_beyond d hd a (by omega)]

/-- Settles O15: space by space. -/
theorem canonicalMemoriesAreTheirContents : Obligations.CanonicalMemoriesAreTheirContents := by
  rintro ⟨mc, md⟩ ⟨nc, nd⟩ ⟨hmc, hmd⟩ ⟨hnc, hnd⟩ h
  have hcode : mc = nc := Cells.ext_of_wf_of_index hmc hnc (h .code)
  have hdata : md = nd := Cells.ext_of_wf_of_index hmd hnd (h .data)
  rw [hcode, hdata]

/-- Loading an image keeps the canonical form: it is a bulk load of the Words its lines stand for. -/
theorem loadImage_wf {lines : List (List Char)} {m n : Memory} (hm : m.wf) (h : loadImage lines m = some n) :
    n.wf := by
  obtain ⟨ws, -, rfl⟩ := Option.map_eq_some_iff.mp h
  exact bulkLoad_wf ws m hm

/-- Settles O16: operation by operation. -/
theorem memoryOperationsKeepTheForm : Obligations.MemoryOperationsKeepTheForm :=
  fun m hm => ⟨fun space i w => memWrite_wf m space i w hm, fun space i k b => memWriteBit_wf m space i k b hm,
    fun ws => bulkLoad_wf ws m hm, fun _ _ h => loadImage_wf hm h⟩

/-- Settles O17: the read laws of the Word write and of the changed bit. -/
theorem hostPortReadsAndWritesWordsAndBits : Obligations.HostPortReadsAndWritesWordsAndBits := by
  refine fun s space i k => ⟨rfl, rfl, fun w => ?_, fun b => ?_⟩
  · exact ⟨_, rfl, ⟨rfl, rfl, rfl, rfl, rfl, rfl⟩, memRead_memWrite_same _ _ _ _,
      fun _ _ h => memRead_memWrite_of_ne _ _ h⟩
  · refine ⟨_, rfl, ⟨rfl, rfl, rfl, rfl, rfl, rfl⟩, fun _ _ h => memRead_memWrite_of_ne _ _ h, fun k' => ?_⟩
    rw [memWriteBit, memRead_memWrite_same]
    exact Kernel.sourceBit_withSourceBit _ k b k'

/-! ### Bulk load and bulk dump -/

/-- R37, R38: the number of a Word in a bulk load or dump, Code first and then Data. -/
def wordNumber (space : Space) (i : Index) : Nat :=
  match space with
  | .code => i.val
  | .data => 15 + i.val

@[simp] theorem wordNumber_code (i : Index) : wordNumber .code i = i.val := rfl

@[simp] theorem wordNumber_data (i : Index) : wordNumber .data i = 15 + i.val := rfl

/-- Word number `k` of a load goes to the place of that number, and to no other. -/
theorem memRead_placeWord (m : Memory) (k : Nat) (w : Word) (space : Space) (i : Index) :
    memRead (placeWord m k w) space i = if wordNumber space i = k then w else memRead m space i := by
  unfold placeWord
  split
  · have hplace : (space = .code ∧ i = ⟨k, ‹_›⟩) ↔ wordNumber space i = k := by
      cases space <;> simp [Fin.ext_iff]; omega
    simp only [memRead_memWrite, hplace]
  · split
    · have hplace : (space = .data ∧ i = ⟨k - 15, ‹_›⟩) ↔ wordNumber space i = k := by
        cases space <;> simp [Fin.ext_iff] <;> omega
      simp only [memRead_memWrite, hplace]
    · have hbeyond : wordNumber space i ≠ k := by
        cases space <;> simp <;> omega
      rw [if_neg hbeyond]

/-- Words placed from number `k` on reach the places from `k` on. -/
theorem memRead_placeWords (ws : List Word) (m : Memory) (k : Nat) (space : Space) (i : Index) :
    memRead (placeWords m k ws) space i =
      if wordNumber space i < k then memRead m space i
      else ws.getD (wordNumber space i - k) (memRead m space i) := by
  induction ws generalizing m k with
  | nil => simp [placeWords]
  | cons w ws ih =>
    rw [placeWords, ih, memRead_placeWord]
    rcases Nat.lt_trichotomy (wordNumber space i) k with hlt | heq | hgt
    · simp [hlt, hlt.ne, Nat.lt_succ_of_lt hlt]
    · simp [heq]
    · have hsub : wordNumber space i - k = wordNumber space i - (k + 1) + 1 := by omega
      rw [if_neg (by omega), if_neg (by omega), if_neg (by omega), hsub, List.getD_cons_succ]

theorem memRead_bulkLoad (ws : List Word) (unreached : Memory) (space : Space) (i : Index) :
    memRead (bulkLoad ws unreached) space i = ws.getD (wordNumber space i) (memRead unreached space i) := by
  simp [bulkLoad, memRead_placeWords]

/-- From number 30 on nothing is placed. -/
theorem placeWords_of_le (ws : List Word) (m : Memory) (k : Nat) (hk : 30 ≤ k) : placeWords m k ws = m := by
  induction ws generalizing k with
  | nil => rfl
  | cons w ws ih =>
    have hw : placeWord m k w = m := by
      rw [placeWord, dif_neg (by omega), dif_neg (by omega)]
    rw [placeWords, hw, ih (k + 1) (by omega)]

/-- Words that would go beyond number 30 may be left out. -/
theorem placeWords_take (ws : List Word) (m : Memory) (k n : Nat) (hn : 30 ≤ k + n) :
    placeWords m k (ws.take n) = placeWords m k ws := by
  induction ws generalizing m k n with
  | nil => simp
  | cons w ws ih =>
    cases n with
    | zero => rw [placeWords_of_le _ m k hn, placeWords_of_le _ m k hn]
    | succ n => exact ih _ (k + 1) n (by omega)

/-- Settles O18: the read law of a load at the numbers of Code and of Data. -/
theorem bulkLoadFillsCodeThenData : Obligations.BulkLoadFillsCodeThenData :=
  fun ws unreached i => ⟨memRead_bulkLoad ws unreached .code i, memRead_bulkLoad ws unreached .data i,
    (placeWords_take ws unreached 0 30 (by omega)).symm⟩

theorem length_bulkDump (m : Memory) : (bulkDump m).length = 30 := by simp [bulkDump]

/-- R38: each Word stands at its number in the dump. -/
theorem bulkDump_getElem? (m : Memory) (space : Space) (i : Index) :
    (bulkDump m)[wordNumber space i]? = some (memRead m space i) := by
  cases space <;> simp [bulkDump, List.getElem?_append]

/-- Settles O19: the load reads back what stands at each number of the dump. -/
theorem dumpThenLoadReproducesMemory : Obligations.DumpThenLoadReproducesMemory := by
  refine ⟨fun m => ⟨length_bulkDump m, fun i => ⟨bulkDump_getElem? m .code i, bulkDump_getElem? m .data i⟩,
    fun fresh space i => ?_⟩, fun s => rfl⟩
  rw [memRead_bulkLoad, List.getD_eq_getElem?_getD, bulkDump_getElem?, Option.getD_some]

/-! ### What a step writes -/

/-- R22, R33: a step leaves memory alone, or it fetched `write k` and put the accumulator into `Data[k]`. -/
theorem step_mem_cases {s t : State} (h : step s = .next t) :
    t.mem = s.mem ∨
    ∃ w, ∃ k : Index, fetches s w ∧ w.toNat = 0x10 + k.val ∧ t.mem = memWrite s.mem .data k s.acc := by
  rcases step_next_cases h with ⟨-, rfl⟩ | ⟨-, -, rfl⟩ | ⟨w, hf, ⟨-, rfl⟩ | ⟨-, he⟩⟩
  · exact .inl rfl
  · exact .inl rfl
  · exact .inl rfl
  · rcases he.mem with hm | ⟨k, hop, hk, hm⟩
    · exact .inl hm
    · rw [toNat_opcodeOf_decodeWord] at hop
      rw [storageIndex_eq_some, operandOf_decodeWord, toNat_lowNibble] at hk
      exact .inr ⟨w, k, hf, by omega, hm⟩

/-- Settles O32: the one write there can be is to Data. -/
theorem coreNeverWritesCode : Obligations.CoreNeverWritesCode := by
  intro s t h i
  rcases step_mem_cases h with hm | ⟨w, k, -, -, hm⟩
  · rw [hm]
  · rw [hm, memRead_memWrite_of_ne _ _ (.inl (by decide))]

/-- Settles O33: a changed Data Word is the one that the fetched `write` names. -/
theorem onlyWriteChangesData : Obligations.OnlyWriteChangesData := by
  intro s t i h hne
  rcases step_mem_cases h with hm | ⟨w, k, hf, hw, hm⟩
  · exact absurd (by rw [hm]) hne
  · by_cases hik : i = k
    · subst hik
      exact ⟨w, hf, hw, by rw [hm, memRead_memWrite_same]⟩
    · exact absurd (by rw [hm, memRead_memWrite_of_ne _ _ (.inr hik)]) hne

/-! ### What a step reads -/

/-- States with equal engines differ in memory only. -/
theorem eq_of_sameEngine {s u : State} (h : sameEngine s u) : u = { s with mem := u.mem } := by
  obtain ⟨hacc, hpc, hcycle, hrun, hir, hfault⟩ := h
  cases u
  simp_all

/-- Both results are next states, and these have equal engines. -/
def NextSameEngine (a b : Result) : Prop := ∃ t v, a = .next t ∧ b = .next v ∧ sameEngine t v

theorem nextSameEngine_of_sameEngine {t v : State} (h : sameEngine t v) : NextSameEngine (.next t) (.next v) :=
  ⟨t, v, rfl, rfl, h⟩

/-- The engine after fault entry does not depend on memory, and at a valid index the effect decides. -/
theorem withDataIndex_sameEngine (word : Word) (n : Address) (s : State) (m : Memory) {effect effect' : Index → State}
    (he : ∀ k, storageIndex n = some k → sameEngine (effect k) (effect' k)) :
    NextSameEngine (withDataIndex word n s effect) (withDataIndex word n { s with mem := m } effect') := by
  cases hn : storageIndex n with
  | none =>
    rw [(storageIndex_eq_none n).mp hn, withDataIndex_sentinel, withDataIndex_sentinel]
    exact nextSameEngine_of_sameEngine ⟨rfl, rfl, rfl, rfl, rfl, rfl⟩
  | some k =>
    rw [withDataIndex_some _ _ _ _ k hn, withDataIndex_some _ _ _ _ k hn]
    exact nextSameEngine_of_sameEngine (he k hn)

/-- An instruction that ends in a new accumulator, in states that differ in memory only. -/
theorem sameEngine_advance_setAcc (s : State) (m : Memory) {v v' : Word} (h : v' = v) :
    sameEngine (advance (setAcc v s)) (advance (setAcc v' { s with mem := m })) :=
  ⟨h, rfl, rfl, rfl, rfl, rfl⟩

/-- R30, R31: of memory, an instruction's effect on the engine depends on the Data Word that `read`, `add` and
`sub` name, and on nothing else. -/
theorem exec_sameEngine (i : Instr) (s : State) (m : Memory)
    (hd : ∀ k, storageIndex (operandOf i) = some k → (opcodeOf i).toNat ∈ [0, 2, 3] →
      memRead m .data k = memRead s.mem .data k) :
    NextSameEngine (exec i s) (exec i { s with mem := m }) := by
  cases i with
  | read n =>
    refine withDataIndex_sameEngine _ n s m fun k hk => sameEngine_advance_setAcc s m ?_
    exact hd k hk (by simp [opcodeOf])
  | write n => exact withDataIndex_sameEngine _ n s m fun k _ => ⟨rfl, rfl, rfl, rfl, rfl, rfl⟩
  | add n =>
    refine withDataIndex_sameEngine _ n s m fun k hk => sameEngine_advance_setAcc s m ?_
    simp only [dataOperand, hd k hk (by simp [opcodeOf])]
  | sub n =>
    refine withDataIndex_sameEngine _ n s m fun k hk => sameEngine_advance_setAcc s m ?_
    simp only [dataOperand, hd k hk (by simp [opcodeOf])]
  | _ => exact nextSameEngine_of_sameEngine ⟨rfl, rfl, rfl, rfl, rfl, rfl⟩

/-- Settles O36: both steps execute the one fetched Word. -/
theorem stepDependsOnTheWordsItNames : Obligations.StepDependsOnTheWordsItNames := by
  intro s₁ s₂ t₁ t₂ w hf₁ hf₂ hs hd h₁ h₂
  have hx : NextSameEngine (step s₁) (step s₂) := by
    rw [step_of_fetches hf₁, step_of_fetches hf₂, eq_of_sameEngine hs]
    refine exec_sameEngine (decodeWord w) (recordFetch w s₁) s₂.mem fun k hk hop => (hd k ?_ ?_).symm
    · rwa [storageIndex_eq_some, operandOf_decodeWord, toNat_lowNibble] at hk
    · rwa [toNat_opcodeOf_decodeWord] at hop
  rw [h₁, h₂] at hx
  obtain ⟨_, _, ⟨⟩, ⟨⟩, ht⟩ := hx
  have ⟨_, hpc, _, hrun, _⟩ := ht
  exact ⟨ht, by rw [stepReturns_of_fetches hf₁ h₁, stepReturns_of_fetches hf₂ h₂, hrun, hpc]⟩

/-! ### The data instructions at a valid index -/

/-- Settles O37: the two laws of `storageIndex`. -/
theorem dataOperandNamesItsOwnIndex : Obligations.DataOperandNamesItsOwnIndex :=
  fun n => ⟨storageIndex_eq_some n, storageIndex_eq_none n⟩

section
variable {n : Address} {i : Index} (s : State) (hi : storageIndex n = some i)
include hi

theorem exec_read_of_index : exec (.read n) s = .next (advance (setAcc (memRead s.mem .data i) s)) :=
  withDataIndex_some _ _ _ _ i hi

theorem exec_write_of_index : exec (.write n) s = .next (advance (storeData i s.acc s)) :=
  withDataIndex_some _ _ _ _ i hi

theorem exec_add_of_index : exec (.add n) s = .next (advance (setAcc
    (Kernel.sat8 (Kernel.toUnsigned s.acc + Kernel.toUnsigned (memRead s.mem .data i))) s)) :=
  withDataIndex_some _ _ _ _ i hi

theorem exec_sub_of_index : exec (.sub n) s = .next (advance (setAcc
    (Kernel.sat8 (Kernel.toUnsigned s.acc - Kernel.toUnsigned (memRead s.mem .data i))) s)) :=
  withDataIndex_some _ _ _ _ i hi

end

/-- Settles O40: after `write` the Data Word is the accumulator. -/
theorem writeIsSeenByTheNextInstruction : Obligations.WriteIsSeenByTheNextInstruction := by
  intro n i s hi
  refine ⟨_, exec_write_of_index s hi, ⟨_, exec_read_of_index _ hi, ?_⟩, ⟨_, exec_add_of_index _ hi, ?_⟩,
    ⟨_, exec_sub_of_index _ hi, ?_⟩⟩
  · simp
  · have hsum : ((s.acc.toNat : Int) + s.acc.toNat).toNat = 2 * s.acc.toNat := by omega
    simp [Kernel.toNat_sat8, Kernel.toUnsigned, hsum]
  · simp [Kernel.toNat_sat8]

end Sys2Proof.Machine
end

section
/-! PROOFS. The family 30_encoding.md: decode and encode as inverses, the opcode table, the assembler, and the Words
that fault. First the laws of the encoder, then the statements. -/

namespace Sys2Proof

/-! ### Encode, then decode -/

/-- R43: the row that an instruction's opcode selects is the instruction's own. -/
theorem ofFields_opcodeOf_operandOf (i : Instr) : ofFields (opcodeOf i) (operandOf i) = i := by
  cases i <;> rfl

/-- R41: the fields of an instruction's Word. -/
@[simp] theorem splitNibbles_encodeWord (i : Instr) :
    Kernel.splitNibbles (encodeWord i) = (opcodeOf i, operandOf i) :=
  Kernel.splitNibbles_append _ _

/-- R45: an instruction is read back from its Word; with `encodeWord_decodeWord` the two are inverses. -/
@[simp] theorem decodeWord_encodeWord (i : Instr) : decodeWord (encodeWord i) = i := by
  rw [decodeWord, splitNibbles_encodeWord]
  exact ofFields_opcodeOf_operandOf i

@[simp] theorem decode_cons (w : Word) (rest : List Word) : decode (w :: rest) = .ok (decodeWord w, rest) := rfl

theorem decode_encode (i : Instr) (rest : List Word) : decode (encode i ++ rest) = .ok (i, rest) := by
  simp [encode]

/-- What was decoded is what stood there. -/
theorem encode_of_decode {words rest : List Word} {i : Instr} (h : decode words = .ok (i, rest)) :
    words = encode i ++ rest := by
  cases words with
  | nil => cases h
  | cons w ws =>
    rw [decode_cons] at h
    cases h
    simp [encode]

/-- R41: the Word in numbers, from the values of its two nibbles. -/
theorem toNat_encodeWord (i : Instr) :
    (encodeWord i).toNat = (opcodeOf i).toNat * 16 + (operandOf i).toNat := by
  have hop := toNat_highNibble (encodeWord i)
  have hn := toNat_lowNibble (encodeWord i)
  rw [← opcodeOf_decodeWord, decodeWord_encodeWord] at hop
  rw [← operandOf_decodeWord, decodeWord_encodeWord] at hn
  omega

/-! ### The opcode table -/

/-- The mask of the table's rows keeps the opcode and clears the operand. -/
theorem append_and_rowMask (opcode operand : Nibble) : (opcode ++ operand : Word) &&& 0xF0#8 = opcode ++ 0#4 := by
  revert opcode operand; decide

/-- R43: among the table's rows exactly one matches an instruction's Word, and it is the instruction's own. -/
theorem matchingRows_encodeWord (i : Instr) :
    (opcodeTable.filter fun r => encodeWord i &&& r.mask = r.value).map OpcodeRow.mnemonic = [mnemonicOf i] := by
  cases i <;> simp [opcodeTable, encodeWord, append_and_rowMask, opcodeOf, mnemonicOf]

end Sys2Proof

namespace Sys2Proof.Machine

/-- Settles O1: the two inverse laws of encode and decode. -/
theorem decodeInvertsEncode : Obligations.DecodeInvertsEncode :=
  ⟨decode_encode, fun _ _ _ => encode_of_decode⟩

/-- Settles O3: the Word's value, and its nibbles as the decoder reads them. -/
theorem encodedWordIsOpcodeThenOperand : Obligations.EncodedWordIsOpcodeThenOperand := fun i =>
  have hsplit := splitNibbles_encodeWord i
  ⟨rfl, toNat_encodeWord i, hsplit, congrArg Prod.fst hsplit, congrArg Prod.snd hsplit⟩

/-- Settles O4: every Word is the encoding of an instruction, and an opcode followed by `x` is the encoding of its
row's instruction. -/
theorem opcodeMapSelectsTheRow : Obligations.OpcodeMapSelectsTheRow := by
  refine ⟨fun w => ?_, fun x => ?_⟩
  · simpa only [encodeWord_decodeWord] using matchingRows_encodeWord (decodeWord w)
  · exact ⟨decodeWord_encodeWord (.read x), decodeWord_encodeWord (.write x), decodeWord_encodeWord (.add x),
      decodeWord_encodeWord (.sub x), decodeWord_encodeWord (.jump x), decodeWord_encodeWord (.jumpIfMax x),
      decodeWord_encodeWord (.jumpIfMin x), decodeWord_encodeWord (.shiftRight x),
      decodeWord_encodeWord (.reserved8 x), decodeWord_encodeWord (.reserved9 x),
      decodeWord_encodeWord (.reserved10 x), decodeWord_encodeWord (.reserved11 x),
      decodeWord_encodeWord (.reserved12 x), decodeWord_encodeWord (.reserved13 x),
      decodeWord_encodeWord (.reserved14 x), decodeWord_encodeWord (.reserved15 x)⟩

/-- Settles O5: each Word evaluates to the encoding of its instruction. -/
theorem wordsWrittenOutDecode : Obligations.WordsWrittenOutDecode :=
  ⟨decode_encode (.read 3) [], decode_encode (.write 14) [], decode_encode (.add 0) [], decode_encode (.sub 1) [],
    decode_encode (.jump 15) [], decode_encode (.jumpIfMax 7) [], decode_encode (.jumpIfMin 10) [],
    decode_encode (.shiftRight 5) [], decode_encode (.reserved8 15) [], decode_encode (.reserved15 15) []⟩

/-! ### The assembler -/

/-- R46: a listing of one item without a label places the item's Word. -/
theorem assemble_item (item : AsmItem) : assemble [⟨none, some item⟩] = (assembleItem [] item).map fun w => [w] := by
  have hlabels : labelTable [⟨none, some item⟩] 0 = [] := rfl
  simp only [assemble, hlabels, List.map_nil, List.nodup_nil, if_true, assembleLines]
  cases assembleItem [] item <;> rfl

/-- R46: the Word of a mnemonic with a decimal operand. -/
theorem assembleItem_num (labels : List (String × Nat)) (m : Mnemonic) (n : Nat) :
    assembleItem labels (.instr m (some (.num n))) =
      if n < 16 then some (encodeWord (mnemonicInstr m (BitVec.ofNat 4 n))) else none := rfl

/-- A mnemonic's opcode does not depend on the operand. -/
theorem opcodeOf_mnemonicInstr (m : Mnemonic) (x y : Nibble) :
    opcodeOf (mnemonicInstr m x) = opcodeOf (mnemonicInstr m y) := by
  cases m <;> rfl

@[simp] theorem operandOf_mnemonicInstr (m : Mnemonic) (x : Nibble) : operandOf (mnemonicInstr m x) = x := by
  cases m <;> rfl

/-- Settles O6: by the operand that follows the mnemonic. -/
theorem assemblerEncodesMnemonics : Obligations.AssemblerEncodesMnemonics := by
  refine ⟨fun m n hn => ?_, fun m n hn => ?_, fun m hm => ?_, ?_, ?_⟩
  · refine ⟨encodeWord (mnemonicInstr m (BitVec.ofNat 4 n)), ?_, ?_, ?_⟩
    · rw [assemble_item, assembleItem_num, if_pos hn]; rfl
    · rw [toNat_encodeWord, operandOf_mnemonicInstr, opcodeOf_mnemonicInstr m _ 0, BitVec.toNat_ofNat,
        Nat.mod_eq_of_lt hn]
    · exact decode_encode _ []
  · rw [assemble_item, assembleItem_num, if_neg (by omega)]; rfl
  · rw [assemble_item, assembleItem, if_neg hm]; rfl
  · rw [assemble_item]; rfl
  · rw [assemble_item]; rfl

/-! ### The Words that fault -/

theorem faultingWord_iff (w : Word) :
    faultingWord w = true ↔ w = 0x0F#8 ∨ w = 0x1F#8 ∨ w = 0x2F#8 ∨ w = 0x3F#8 := by
  simp [faultingWord]

/-- Settles O48: the run state after a fetch, with the faulting Words written out. -/
theorem faultsOnExactlyFourWords : Obligations.FaultsOnExactlyFourWords := by
  intro s w hf
  obtain ⟨t, ht, -⟩ := step_cases s
  refine ⟨t, ht, ?_⟩
  rw [run_of_fetches hf ht, ← faultingWord_iff]
  cases faultingWord w <;> simp

end Sys2Proof.Machine
end

section
/-! PROOFS. The family 40_alu.md: the bit-vector arithmetic kernel. First what each kernel function is in numbers or
bit by bit, then the statements. -/

namespace Sys2Proof.Kernel

/-! ### The unsigned value -/

/-- The low `L` bits of a number, summed with their weights: one more bit at each step. -/
theorem mod_two_pow_eq_sum_testBit (n L : Nat) :
    n % 2 ^ L = ∑ i ∈ Finset.range L, if n.testBit i then 2 ^ i else 0 := by
  induction L with
  | zero => simp [Nat.mod_one]
  | succ L ih =>
    rw [Nat.mod_pow_succ, ← Nat.toNat_testBit, Finset.sum_range_succ, ← ih]
    cases n.testBit L <;> simp

/-- R48: a bit sequence's value lies below `2 ^ L`, so it is the sum of all its bits. -/
theorem toUnsigned_eq_sum {L : Nat} (v : BitVec L) :
    toUnsigned v = ∑ i : Fin L, (if v.getLsbD i.val then 2 ^ i.val else 0 : Int) := by
  have hsum : v.toNat = ∑ i ∈ Finset.range L, if v.getLsbD i then 2 ^ i else 0 := by
    rw [← Nat.mod_eq_of_lt v.isLt, mod_two_pow_eq_sum_testBit]
    rfl
  rw [toUnsigned, hsum, Finset.sum_range]
  simp only [Nat.cast_sum, Nat.cast_ite, Nat.cast_pow, Nat.cast_ofNat, Nat.cast_zero]

theorem toUnsigned_injective {L : Nat} {v w : BitVec L} (h : toUnsigned v = toUnsigned w) : v = w :=
  BitVec.eq_of_toNat_eq (Int.ofNat.inj h)

theorem toUnsigned_zero (L : Nat) : toUnsigned (BitVec.zero L) = 0 := by
  simp [toUnsigned]

theorem toUnsigned_allOnes (L : Nat) : toUnsigned (BitVec.allOnes L) = 2 ^ L - 1 := by
  have hpos : 1 ≤ 2 ^ L := Nat.one_le_two_pow
  rw [toUnsigned, BitVec.toNat_allOnes, Nat.cast_sub hpos, Nat.cast_pow, Nat.cast_ofNat, Nat.cast_one]

/-! ### The saturating encoder -/

/-- R49 in numbers: `x` clamped to the range of the length, by the encoder's three branches. -/
theorem toUnsigned_fromUnsignedSaturating (x : Int) (L : Nat) :
    toUnsigned (fromUnsignedSaturating x L) = min (max x 0) (2 ^ L - 1) := by
  have hpos : (1 : Int) ≤ 2 ^ L := one_le_pow₀ (by decide)
  unfold fromUnsignedSaturating
  split
  next hlow =>
    rw [max_eq_right hlow, min_eq_left (by omega)]
    exact toUnsigned_zero L
  next hlow =>
    rw [max_eq_left (by omega)]
    split
    next hhigh => rw [min_eq_right hhigh, toUnsigned_allOnes]
    next hhigh =>
      have hlt : x.toNat < 2 ^ L := by zify; omega
      rw [min_eq_left (by omega), toUnsigned, BitVec.toNat_ofNat, Nat.mod_eq_of_lt hlt]
      omega

/-! ### Nibbles -/

/-- R51 in numbers: the two nibbles are the quotient and the remainder by 16. -/
theorem toUnsigned_eq_nibbles (w : Word) :
    toUnsigned w = 16 * toUnsigned (splitNibbles w).1 + toUnsigned (splitNibbles w).2 := by
  simp only [toUnsigned, splitNibbles, toNat_highNibble, toNat_lowNibble]
  omega

/-- R52 in numbers: from 8 up the sign bit is set, and the magnitude is what lies above 8. -/
theorem decodeSignedNibble_eq (n : Nibble) :
    decodeSignedNibble n = if n.toNat < 8 then (n.toNat : Int) else -((n.toNat : Int) - 8) := by
  revert n; decide

/-- Flipping `n[3]` adds 8 or takes it away. -/
theorem toNat_flipSign (n : Nibble) : (n ^^^ 0b1000#4).toNat = if n.toNat < 8 then n.toNat + 8 else n.toNat - 8 := by
  revert n; decide

theorem decodeSignedNibble_flipSign (n : Nibble) :
    decodeSignedNibble (n ^^^ 0b1000#4) = -decodeSignedNibble n := by
  rw [decodeSignedNibble_eq, decodeSignedNibble_eq, toNat_flipSign]
  split <;> split <;> omega

theorem decodeSignedNibble_range (n : Nibble) : -7 ≤ decodeSignedNibble n ∧ decodeSignedNibble n ≤ 7 := by
  rw [decodeSignedNibble_eq]
  split <;> omega

/-- Only the two zeros, with and without the sign bit, have the value 0. -/
theorem decodeSignedNibble_eq_zero_iff (n : Nibble) : decodeSignedNibble n = 0 ↔ n.toNat % 8 = 0 := by
  rw [decodeSignedNibble_eq]
  split <;> omega

/-! ### Shift -/

/-- R55 bit by bit: bit 7 takes bit 8, which a Word does not have. -/
theorem getLsbD_shr1 (w : Word) (i : Nat) : (shr1 w).getLsbD i = w.getLsbD (i + 1) := by
  rw [shr1, BitVec.getLsbD_ushiftRight, Nat.add_comm]

theorem toNat_shr1 (w : Word) : (shr1 w).toNat = w.toNat / 2 := by
  rw [shr1, BitVec.toNat_ushiftRight, Nat.shiftRight_eq_div_pow, pow_one]

end Sys2Proof.Kernel

namespace Sys2Proof.Machine

/-- R53, R79: a two-operand kernel function refuses operands of different run-time lengths. -/
theorem bitwiseRaw_of_length_ne (f : Bool → Bool → Bool) {a b : List Bool} (h : a.length ≠ b.length) :
    bitwiseRaw f a b = .refused .invalidOperand :=
  if_neg h

/-- Settles O7: the sum by induction on the number of bits, and the bounds of a bit sequence. -/
theorem toUnsignedIsTheSumOfBits : Obligations.ToUnsignedIsTheSumOfBits := fun _ v =>
  ⟨Kernel.toUnsigned_eq_sum v, Kernel.toUnsigned_nonneg v, Int.le_sub_one_of_lt (Kernel.toUnsigned_lt v)⟩

/-- Settles O8: each clause compares values, and the encoder's value is `x` clamped. -/
theorem fromUnsignedSaturates : Obligations.FromUnsignedSaturates := by
  intro x L
  have hvalue := Kernel.toUnsigned_fromUnsignedSaturating x L
  have hpos : (1 : Int) ≤ 2 ^ L := one_le_pow₀ (by decide)
  refine ⟨fun hlow => Kernel.toUnsigned_injective ?_, fun hhigh => Kernel.toUnsigned_injective ?_,
    fun ⟨hlow, hhigh⟩ => ?_⟩
  · rw [hvalue, Kernel.toUnsigned_zero]; omega
  · rw [hvalue, Kernel.toUnsigned_allOnes]; omega
  · rw [hvalue]; omega

/-- Settles O9: the encoder's value at length 8. -/
theorem sat8Clamps : Obligations.Sat8Clamps := fun x =>
  ⟨rfl, Kernel.toUnsigned_fromUnsignedSaturating x 8⟩

/-- Settles O10: the nibbles are the fields by definition, and their values are quotient and remainder. -/
theorem splitNibblesHighFirst : Obligations.SplitNibblesHighFirst := fun w =>
  ⟨rfl, Kernel.toUnsigned_eq_nibbles w⟩

/-- Settles O11: a value and its negation are equal only at 0. -/
theorem signedNibbleIsSignAndMagnitude : Obligations.SignedNibbleIsSignAndMagnitude := by
  intro n
  obtain ⟨hlow, hhigh⟩ := Kernel.decodeSignedNibble_range n
  refine ⟨Kernel.decodeSignedNibble_eq n, Kernel.decodeSignedNibble_flipSign n, hlow, hhigh, fun hmagnitude => ?_⟩
  have hne : Kernel.decodeSignedNibble n ≠ 0 := mt (Kernel.decodeSignedNibble_eq_zero_iff n).mp hmagnitude
  rw [Kernel.decodeSignedNibble_flipSign]
  omega

/-- Settles O12: the bit laws of the four operations, and the length check of the run-time forms. -/
theorem logicIsElementwise : Obligations.LogicIsElementwise := by
  refine ⟨fun L a b i hi => ?_, fun a b hlen => ?_⟩
  · refine ⟨BitVec.getLsbD_and, BitVec.getLsbD_or, BitVec.getLsbD_xor, ?_⟩
    rw [Kernel.bitwiseNot, BitVec.getLsbD_not, decide_eq_true hi, Bool.true_and]
  · exact ⟨bitwiseRaw_of_length_ne _ hlen, bitwiseRaw_of_length_ne _ hlen, bitwiseRaw_of_length_ne _ hlen⟩

/-- Settles O13: the shifted Word's bits and value. -/
theorem shr1HalvesAndFillsWithZero : Obligations.Shr1HalvesAndFillsWithZero := fun w =>
  ⟨(Kernel.getLsbD_shr1 w 7).trans (BitVec.getLsbD_of_ge w 8 le_rfl), fun i _ => Kernel.getLsbD_shr1 w i,
    Kernel.toNat_shr1 w⟩

end Sys2Proof.Machine
end

section
/-! PROOFS. The family 41_step_cycle.md: the step, what it returns, and rule R57's listing. First what an executed
step leaves and returns, then the statements that follow from it, and the listing last. -/

namespace Sys2Proof.Machine

/-! ### Fetch, decode and halt -/

/-- Settles O2: the instruction is `decodeWord w`. -/
theorem everyWordDecodesByItsNibbles : Obligations.EveryWordDecodesByItsNibbles := fun w rest =>
  ⟨decodeWord w, decode_cons w rest, by rw [opcodeOf_decodeWord, operandOf_decodeWord]; rfl,
    opcodeOf_decodeWord w, operandOf_decodeWord w⟩

/-- Settles O21: the instruction is `decodeWord w`. -/
theorem stepRunsTheDecodedInstruction : Obligations.StepRunsTheDecodedInstruction := fun _ w hf =>
  ⟨decodeWord w, decode_cons w [], step_of_fetches hf⟩

/-- Settles O22: the sentinel's step and signal. -/
theorem sentinelHaltsWithoutFetching : Obligations.SentinelHaltsWithoutFetching := fun s hr hp =>
  ⟨step_at_sentinel s hr hp, stepReturns_at_sentinel hr hp⟩

/-- Settles O24: every case of a step is a next state. -/
theorem everyStepAnswersANextState : Obligations.EveryStepAnswersANextState := fun s =>
  have ⟨t, ht, _⟩ := step_cases s
  ⟨t, ht⟩

/-! ### Runs -/

theorem coreRun_zero (s : State) : Host.Core.run core 0 s = .next s := rfl

/-- A run is its first step, then the rest of the run. -/
theorem coreRun_succ {s t : State} (h : step s = .next t) (k : Nat) :
    Host.Core.run core (k + 1) s = Host.Core.run core k t := by
  have hstep : core.step s = .next t := h
  simp only [Host.Core.run, hstep]

/-- R67: a stopped engine stands still, however many steps are taken. -/
theorem coreRun_of_stopped {s : State} (hr : s.run ≠ .running) (k : Nat) :
    Host.Core.run core k s = .next s := by
  induction k with
  | zero => exact coreRun_zero s
  | succ k ih => rw [coreRun_succ (step_of_stopped s hr), ih]

/-- Settles O23: the signal of a stopped engine, and its runs. -/
theorem stoppedEngineNeverChanges : Obligations.StoppedEngineNeverChanges := fun _ hr =>
  ⟨stepReturns_of_stopped hr, coreRun_of_stopped hr⟩

/-! ### Executed steps -/

/-- A step that fetches and does not fault executes the fetched Word. -/
theorem executed_of_fetches {s t : State} {w : Word} (hf : fetches s w) (h : step s = .next t)
    (ht : t.run ≠ .faulted) : Executed (decodeWord w) (recordFetch w s) t := by
  rcases step_cases_of_fetches hf h with ⟨-, rfl⟩ | ⟨-, he⟩
  · exact absurd rfl ht
  · exact he

/-- R65: an executed step returns whether the new `pc` is not the sentinel. -/
theorem stepReturns_of_executed {s t : State} {w : Word} (hf : fetches s w) (h : step s = .next t)
    (ht : t.run ≠ .faulted) : stepReturns s = decide (t.pc ≠ Config.haltSentinel) := by
  rw [stepReturns_of_fetches hf h, decide_eq_true ht, Bool.true_and]

/-- R65: a step that leaves the engine stopped returns false. -/
theorem stepReturns_of_not_running {s t : State} (h : step s = .next t) (ht : t.run ≠ .running) :
    stepReturns s = false := by
  rcases step_next_cases h with ⟨hr, -⟩ | ⟨hr, hp, -⟩ | ⟨w, hf, ⟨-, rfl⟩ | ⟨-, he⟩⟩
  · exact stepReturns_of_stopped hr
  · exact stepReturns_at_sentinel hr hp
  · simp [stepReturns_of_fetches hf h]
  · exact absurd (he.run.trans hf.1) ht

/-- R58: a running engine's step does nothing but halt exactly at the sentinel: a step that fetches never leaves
`Halted`. -/
theorem step_eq_enterHalted_iff {s : State} (hr : s.run = .running) :
    step s = .next (enterHalted s) ↔ s.pc = Config.haltSentinel := by
  refine ⟨fun h => ?_, step_at_sentinel s hr⟩
  by_contra hp
  obtain ⟨w, hf⟩ := fetches_of_running hr hp
  have hrun := run_of_fetches hf h
  cases hw : faultingWord w <;> simp [hw] at hrun

/-- Settles O26: an executed step leaves the engine running, so its next step halts exactly at the sentinel; every
other step leaves it stopped. -/
theorem continuationSignalLooksAhead : Obligations.ContinuationSignalLooksAhead := by
  intro s t h
  refine ⟨fun ⟨hr, hp, ht⟩ => ?_, stepReturns_of_not_running h, ?_⟩
  · obtain ⟨w, hf⟩ := fetches_of_running hr hp
    exact ⟨(executed_of_fetches hf h ht).run.trans hr, by rw [stepReturns_of_executed hf h ht, decide_eq_true_iff]⟩
  · by_cases htr : t.run = .running
    · have hahead : step t = .next { t with run := .halted } ↔ t.pc = Config.haltSentinel := step_eq_enterHalted_iff htr
      rcases step_next_cases h with ⟨hr, rfl⟩ | ⟨-, -, rfl⟩ | ⟨w, hf, -⟩
      · exact absurd htr hr
      · cases htr
      · rw [stepReturns_of_executed hf h (by simp [htr]), hahead]
        simp [htr]
    · simp [stepReturns_of_not_running h htr, htr]

/-- Settles O27: the two clauses of an executed instruction about `pc`, by the fetched Word's nibbles. -/
theorem pcAdvanceRule : Obligations.PcAdvanceRule := by
  intro s t w hf h ht
  have he := executed_of_fetches hf h ht
  have htaken := he.pc_taken
  have hnext := he.pc_next
  rw [transfers, toNat_opcodeOf_decodeWord] at htaken hnext
  refine ⟨fun hop => ?_, fun hop => ?_⟩
  · rw [htaken hop, operandOf_decodeWord, toNat_lowNibble]
  · rw [hnext hop]; exact toNat_succ_address s.pc

/-- R64: the steps that do not execute leave `cycle` as it is. -/
theorem cycle_of_not_executed {s t : State} (h : step s = .next t)
    (hn : s.run ≠ .running ∨ s.pc = Config.haltSentinel ∨ t.run = .faulted) : t.cycle = s.cycle := by
  rcases step_next_cases h with ⟨-, rfl⟩ | ⟨-, -, rfl⟩ | ⟨w, hf, ⟨-, rfl⟩ | ⟨-, he⟩⟩
  · rfl
  · rfl
  · rfl
  · have htr : t.run = .running := he.run.trans hf.1
    exact absurd hn (by simp [hf.1, fetches_pc_ne hf, htr])

/-- R64: one step counts at most one cycle. -/
theorem cycle_step_bounds {s t : State} (h : step s = .next t) : s.cycle ≤ t.cycle ∧ t.cycle ≤ s.cycle + 1 := by
  rcases step_next_cases h with ⟨-, rfl⟩ | ⟨-, -, rfl⟩ | ⟨w, -, ⟨-, rfl⟩ | ⟨-, he⟩⟩
  · simp
  · simp
  · simp
  · simp [he.cycle]

/-- R64: a run of `k` steps counts at most `k` cycles. -/
theorem cycle_run_bounds (k : Nat) (s t : State) (h : Host.Core.run core k s = .next t) :
    s.cycle ≤ t.cycle ∧ t.cycle ≤ s.cycle + k := by
  induction k generalizing s with
  | zero =>
    rw [coreRun_zero] at h
    cases h
    simp
  | succ k ih =>
    obtain ⟨u, hu, -⟩ := step_cases s
    rw [coreRun_succ hu] at h
    have hstep := cycle_step_bounds hu
    have hrest := ih u h
    omega

/-- Settles O28: one step by its cases, a run by induction on the number of steps. -/
theorem cycleCountsExecutedInstructions : Obligations.CycleCountsExecutedInstructions := by
  refine ⟨fun s t h => ⟨fun ⟨hr, hp, ht⟩ => ?_, cycle_of_not_executed h⟩, cycle_run_bounds⟩
  obtain ⟨w, hf⟩ := fetches_of_running hr hp
  exact (executed_of_fetches hf h ht).cycle

/-- Settles O35: the executed step leaves a running engine at the sentinel. -/
theorem lastInstructionThenHalt : Obligations.LastInstructionThenHalt := by
  intro s t w hf h ht hp
  have he := executed_of_fetches hf h ht
  have htr : t.run = .running := he.run.trans hf.1
  exact ⟨htr, he.cycle, by rw [stepReturns_of_executed hf h ht, hp]; rfl, step_at_sentinel t htr hp,
    stepReturns_at_sentinel htr hp⟩

/-! ### The listing of R57 -/

/-- The listing writes a bit vector by its number. -/
theorem eq_ofNat_of_toNat_eq {L n : Nat} {v : BitVec L} (h : v.toNat = n) : v = BitVec.ofNat L n := by
  rw [← h, BitVec.ofNat_toNat, BitVec.setWidth_eq]

/-- The operand of a data instruction that passes the data-index check names an index. -/
theorem exists_index_of_not_indexesBeyondData {i : Instr} (hi : ¬indexesBeyondData i) (hop : (opcodeOf i).toNat < 4) :
    ∃ k, storageIndex (operandOf i) = some k ∧ k.val = (operandOf i).toNat := by
  obtain ⟨k, hk⟩ := Option.ne_none_iff_exists'.mp fun hn => hi ⟨hop, (storageIndex_eq_none _).mp hn⟩
  exact ⟨k, hk, (storageIndex_eq_some _ k).mp hk⟩

/-- The state after the listing's execute phase for `i` and the end that its `taken` selects (R62 to R64). -/
def listedRetire (i : Instr) (s : State) : State :=
  let listed := listedExecute (opcodeOf i).toNat (operandOf i).toNat s
  retire listed.2 (operandOf i) listed.1

/-- R62: an instruction that passes the data-index check executes as the listing says. -/
theorem exec_eq_listedRetire {i : Instr} (s : State) (hi : ¬indexesBeyondData i) :
    exec i s = .next (listedRetire i s) := by
  have hindex := exists_index_of_not_indexesBeyondData hi
  cases i with
  | read n =>
    obtain ⟨k, hk, hv⟩ := hindex (by simp [opcodeOf])
    rw [exec_read_of_index (n := n) s hk, memRead, hv]; rfl
  | write n =>
    obtain ⟨k, hk, hv⟩ := hindex (by simp [opcodeOf])
    rw [exec_write_of_index (n := n) s hk, storeData, memWrite, hv]; rfl
  | add n =>
    obtain ⟨k, hk, hv⟩ := hindex (by simp [opcodeOf])
    rw [exec_add_of_index (n := n) s hk, memRead, hv, eq_ofNat_of_toNat_eq (Kernel.toNat_sat8 _)]; rfl
  | sub n =>
    obtain ⟨k, hk, hv⟩ := hindex (by simp [opcodeOf])
    have hdiff (d : Word) : (Kernel.sat8 (Kernel.toUnsigned s.acc - Kernel.toUnsigned d)).toNat =
        s.acc.toNat - d.toNat := by
      rw [Kernel.toNat_sat8, Kernel.toUnsigned, Kernel.toUnsigned]
      omega
    rw [exec_sub_of_index (n := n) s hk, memRead, hv, eq_ofNat_of_toNat_eq (hdiff _)]; rfl
  | jump t => rfl
  | jumpIfMax t =>
    have htest : accIsMax s = decide (s.acc.toNat = 255) := Bool.eq_iff_iff.mpr (by simp)
    rw [exec, execJumpIfMax, htest]; rfl
  | jumpIfMin t =>
    have htest : accIsMin s = decide (s.acc.toNat = 0) := Bool.eq_iff_iff.mpr (by simp)
    rw [exec, execJumpIfMin, htest]; rfl
  | shiftRight x =>
    rw [exec, execShiftRight, eq_ofNat_of_toNat_eq (Kernel.toNat_shr1 s.acc)]; rfl
  | _ => rfl

/-- R44, R61: the listing's data-index check, in the numbers of the Word's nibbles. -/
theorem listedCheck_iff (w : Word) : (w.toNat / 16 ∈ [0, 1, 2, 3] ∧ w.toNat % 16 = 15) ↔ faultingWord w = true := by
  revert w; decide

/-- No instruction's listed execution touches `pc` or `cycle`. -/
theorem listedExecute_pc_cycle (opcode operand : Nat) (s : State) :
    (listedExecute opcode operand s).1.pc = s.pc ∧ (listedExecute opcode operand s).1.cycle = s.cycle := by
  unfold listedExecute
  split <;> exact ⟨rfl, rfl⟩

/-- R63, R64: the end of the listing in numbers, as `listedStep` writes it. -/
theorem listedRetire_decodeWord (w : Word) (s : State) :
    listedRetire (decodeWord w) s = { (listedExecute (w.toNat / 16) (w.toNat % 16) s).1 with
      pc := if (listedExecute (w.toNat / 16) (w.toNat % 16) s).2 then BitVec.ofNat 4 (w.toNat % 16)
        else BitVec.ofNat 4 ((s.pc.toNat + 1) % 16)
      cycle := s.cycle + 1 } := by
  have hoperand : (operandOf (decodeWord w)).toNat = w.toNat % 16 := by rw [operandOf_decodeWord, toNat_lowNibble]
  obtain ⟨hpc, hcycle⟩ := listedExecute_pc_cycle (w.toNat / 16) (w.toNat % 16) s
  rw [listedRetire, retire, toNat_opcodeOf_decodeWord, hoperand, hpc, hcycle, eq_ofNat_of_toNat_eq hoperand,
    eq_ofNat_of_toNat_eq (toNat_succ_address s.pc)]

theorem toNat_eq_fifteen_iff (a : Address) : a.toNat = 15 ↔ a = Config.haltSentinel := by
  revert a; decide

theorem listedStep_of_stopped {s : State} (hr : s.run ≠ .running) : listedStep s = (s, false) := if_pos hr

theorem listedStep_at_sentinel {s : State} (hr : s.run = .running) (hp : s.pc = Config.haltSentinel) :
    listedStep s = (enterHalted s, false) := by
  rw [listedStep, if_neg (not_not.mpr hr), if_pos ((toNat_eq_fifteen_iff _).mpr hp), enterHalted]

section
variable {s : State} {w : Word} (hf : fetches s w)
include hf

/-- The listing fetches the Word at `Code[pc]`. -/
theorem read_code_of_fetches : Cells.read s.mem.code s.pc.toNat = w := by
  obtain ⟨-, i, hi, rfl⟩ := hf
  rw [← hi]; rfl

theorem listedStep_of_faultingWord (hw : faultingWord w = true) :
    listedStep s = (raiseFault .invalidDataIndex w (recordFetch w s), false) := by
  rw [listedStep, if_neg (not_not.mpr hf.1), if_neg (mt (toNat_eq_fifteen_iff _).mp (fetches_pc_ne hf)),
    read_code_of_fetches hf]
  exact if_pos ((listedCheck_iff w).mpr hw)

theorem listedStep_of_not_faultingWord (hw : faultingWord w = false) :
    listedStep s = (listedRetire (decodeWord w) (recordFetch w s),
      decide ((listedRetire (decodeWord w) (recordFetch w s)).pc ≠ Config.haltSentinel)) := by
  have hcheck := mt (listedCheck_iff w).mp (by simp [hw])
  rw [listedStep, if_neg (not_not.mpr hf.1), if_neg (mt (toNat_eq_fifteen_iff _).mp (fetches_pc_ne hf)),
    read_code_of_fetches hf, listedRetire_decodeWord]
  refine (if_neg hcheck).trans (Prod.ext rfl ?_)
  exact decide_eq_decide.mpr (not_congr (toNat_eq_fifteen_iff _))

end

/-! ### The step, case by case -/

theorem step_of_faultingWord {s : State} {w : Word} (hf : fetches s w) (hw : faultingWord w = true) :
    step s = .next (raiseFault .invalidDataIndex w (recordFetch w s)) := by
  obtain ⟨t, ht, -⟩ := step_cases s
  rcases step_cases_of_fetches hf ht with ⟨-, rfl⟩ | ⟨hw', -⟩
  · exact ht
  · exact absurd hw (by simp [hw'])

theorem step_of_not_faultingWord {s : State} {w : Word} (hf : fetches s w) (hw : faultingWord w = false) :
    step s = .next (listedRetire (decodeWord w) (recordFetch w s)) := by
  have hi : ¬indexesBeyondData (decodeWord w) := by simp [indexesBeyondData_decodeWord, hw]
  exact (step_of_fetches hf).trans (exec_eq_listedRetire (recordFetch w s) hi)

/-- Settles O25: the listing's four cases are the step's. -/
theorem stepIsTheListing : Obligations.StepIsTheListing := by
  intro s
  rcases stopped_or_sentinel_or_fetches s with hr | ⟨hr, hp⟩ | ⟨w, hf⟩
  · rw [listedStep_of_stopped hr]
    exact ⟨step_of_stopped s hr, stepReturns_of_stopped hr⟩
  · rw [listedStep_at_sentinel hr hp]
    exact ⟨step_at_sentinel s hr hp, stepReturns_at_sentinel hr hp⟩
  · cases hw : faultingWord w with
    | true =>
      have hstep := step_of_faultingWord hf hw
      rw [listedStep_of_faultingWord hf hw]
      exact ⟨hstep, stepReturns_of_not_running hstep (by simp)⟩
    | false =>
      have hstep := step_of_not_faultingWord hf hw
      rw [listedStep_of_not_faultingWord hf hw]
      exact ⟨hstep, stepReturns_of_executed hf hstep (by simp [run_of_fetches hf hstep, hw])⟩

end Sys2Proof.Machine
end

section
/-! PROOFS. The family 42_data_transfer.md: `read` and `write`. First the two ends of any data instruction, then the
statements. -/

namespace Sys2Proof.Machine

/-! ### The two ends of a data instruction -/

/-- R61, R80: a data instruction with operand 15 enters the fault for its own Word. -/
theorem exec_enters_fault {i : Instr} (s : State) (hi : indexesBeyondData i) :
    ∃ t, exec i s = .next t ∧ faultEntered (encodeWord i) s t := by
  obtain ⟨t, ht, ⟨-, rfl⟩ | ⟨hn, -⟩⟩ := exec_cases i s
  · exact ⟨_, ht, rfl, rfl, rfl, rfl, rfl, rfl, fun _ _ => rfl⟩
  · exact absurd hi hn

/-- R63, R64: the end of an instruction whose effect has left `pc` and `cycle` alone. -/
theorem advanced_advance {s u : State} (hpc : u.pc = s.pc) (hcycle : u.cycle = s.cycle) : advanced s (advance u) := by
  rw [advanced, advance_pc, advance_cycle, hpc, hcycle]
  exact ⟨toNat_succ_address s.pc, rfl⟩

/-! ### `read` and `write` -/

/-- Settles O38: at an index only the accumulator changes, and operand 15 enters the fault. -/
theorem readLoadsTheDataWord : Obligations.ReadLoadsTheDataWord := by
  refine fun n s => ⟨toNat_encodeWord (.read n), fun i hi => ?_, ?_⟩
  · exact ⟨_, exec_read_of_index s hi, rfl, advanced_advance rfl rfl, ⟨rfl, rfl, rfl⟩, fun _ _ => rfl⟩
  · rintro rfl
    exact exec_enters_fault s (i := .read 15#4) (by decide)

/-- Settles O39: at an index only that Data Word changes, and operand 15 enters the fault. -/
theorem writeStoresTheAccumulator : Obligations.WriteStoresTheAccumulator := by
  refine fun n s => ⟨toNat_encodeWord (.write n), fun i hi => ?_, ?_⟩
  · exact ⟨_, exec_write_of_index s hi, memRead_memWrite_same s.mem .data i s.acc,
      fun _ _ h => memRead_memWrite_of_ne s.mem s.acc h, rfl, advanced_advance rfl rfl, ⟨rfl, rfl, rfl⟩⟩
  · rintro rfl
    exact exec_enters_fault s (i := .write 15#4) (by decide)

end Sys2Proof.Machine
end

section
/-! PROOFS. The family 43_arithmetic.md: `add` and `sub`. First the two saturating sums of Words, then the
statements. -/

namespace Sys2Proof.Kernel

/-- R71: the saturated sum of two Words; it cannot be negative. -/
theorem toNat_sat8_add (a d : Word) :
    (sat8 (toUnsigned a + toUnsigned d)).toNat = min (a.toNat + d.toNat) 255 := by
  rw [toNat_sat8, toUnsigned, toUnsigned, ← Int.natCast_add, Int.toNat_natCast]

/-- R72: the saturated difference of two Words; it cannot exceed 255. -/
theorem toNat_sat8_sub (a d : Word) :
    ((sat8 (toUnsigned a - toUnsigned d)).toNat : Int) = max ((a.toNat : Int) - (d.toNat : Int)) 0 := by
  have hle : (toUnsigned a - toUnsigned d).toNat ≤ 255 := by
    rw [toUnsigned, toUnsigned]
    omega
  rw [toNat_sat8, min_eq_left hle, Int.toNat_eq_max, toUnsigned, toUnsigned]

end Sys2Proof.Kernel

namespace Sys2Proof.Machine

/-- Settles O41: at an index only the accumulator changes, to the saturated sum, and operand 15 enters the fault. -/
theorem addSaturatesAt255 : Obligations.AddSaturatesAt255 := by
  refine fun n s => ⟨toNat_encodeWord (.add n), fun i hi => ?_, ?_⟩
  · exact ⟨_, exec_add_of_index s hi, Kernel.toNat_sat8_add s.acc (memRead s.mem .data i),
      advanced_advance rfl rfl, ⟨rfl, rfl, rfl⟩, fun _ _ => rfl⟩
  · rintro rfl
    exact exec_enters_fault s (i := .add 15#4) (by decide)

/-- Settles O42: at an index only the accumulator changes, to the saturated difference, and operand 15 enters the
fault. -/
theorem subSaturatesAtZero : Obligations.SubSaturatesAtZero := by
  refine fun n s => ⟨toNat_encodeWord (.sub n), fun i hi => ?_, ?_⟩
  · exact ⟨_, exec_sub_of_index s hi, Kernel.toNat_sat8_sub s.acc (memRead s.mem .data i),
      advanced_advance rfl rfl, ⟨rfl, rfl, rfl⟩, fun _ _ => rfl⟩
  · rintro rfl
    exact exec_enters_fault s (i := .sub 15#4) (by decide)

end Sys2Proof.Machine
end

section
/-! PROOFS. The family 44_control.md: `jump`, `jumpIfMax` and `jumpIfMin`. First the program counter that a tested
transfer leaves, then the statements. -/

namespace Sys2Proof.Machine

/-- R63, R74, R75: the program counter in numbers, after an instruction whose test decides `c`. -/
theorem toNat_pc_retire {taken : Bool} {c : Prop} [Decidable c] (htest : taken = true ↔ c) (target : Address)
    (s : State) :
    (retire taken target s).pc.toNat = if c then target.toNat else (s.pc.toNat + 1) % 16 := by
  by_cases hc : c
  · rw [if_pos hc, retire_pc, if_pos (htest.mpr hc)]
  · rw [if_neg hc, retire_pc, if_neg (mt htest.mp hc), toNat_succ_address]

/-- Settles O43: the transfer is always taken, and nothing is tested. -/
theorem jumpSetsPc : Obligations.JumpSetsPc := fun t s =>
  ⟨toNat_encodeWord (.jump t), retire true t s, rfl, rfl, rfl, rfl, ⟨rfl, rfl, rfl⟩, fun _ _ => rfl⟩

/-- Settles O44: the test of `jumpIfMax` is that the accumulator is 255. -/
theorem jumpIfMaxTestsFor255 : Obligations.JumpIfMaxTestsFor255 := fun t s =>
  ⟨toNat_encodeWord (.jumpIfMax t), retire (accIsMax s) t s, rfl, toNat_pc_retire (accIsMax_iff s) t s,
    rfl, rfl, ⟨rfl, rfl, rfl⟩, fun _ _ => rfl⟩

/-- Settles O45: the test of `jumpIfMin` is that the accumulator is 0. -/
theorem jumpIfMinTestsForZero : Obligations.JumpIfMinTestsForZero := fun t s =>
  ⟨toNat_encodeWord (.jumpIfMin t), retire (accIsMin s) t s, rfl, toNat_pc_retire (accIsMin_iff s) t s,
    rfl, rfl, ⟨rfl, rfl, rfl⟩, fun _ _ => rfl⟩

end Sys2Proof.Machine
end

section
/-! PROOFS. The family 45_shift.md: `shiftRight`, which halves the accumulator and never reads its operand. -/

namespace Sys2Proof.Machine

/-- Settles O46: the shifted accumulator's value is the half, and no operand enters the execution. -/
theorem shiftRightHalvesTheAccumulator : Obligations.ShiftRightHalvesTheAccumulator := by
  refine fun x s => ⟨toNat_encodeWord (.shiftRight x), ?_, fun _ => rfl⟩
  exact ⟨advance (setAcc (Kernel.shr1 s.acc) s), rfl, Kernel.toNat_shr1 s.acc, advanced_advance rfl rfl,
    ⟨rfl, rfl, rfl⟩, fun _ _ => rfl⟩

end Sys2Proof.Machine
end

section
/-! PROOFS. The family 46_reserved.md: the reserved opcodes, which are those from 8 up and do nothing but advance. -/

namespace Sys2Proof.Machine

/-- R77: an instruction with an opcode from 8 up only advances; its operand is never read. -/
theorem exec_of_eight_le_opcodeOf {i : Instr} (s : State) (hop : 8 ≤ (opcodeOf i).toNat) :
    exec i s = .next (advance s) := by
  cases i with
  | read | write | add | sub | jump | jumpIfMax | jumpIfMin | shiftRight => exact absurd hop (by simp [opcodeOf])
  | reserved8 | reserved9 | reserved10 | reserved11 | reserved12 | reserved13 | reserved14 | reserved15 => rfl

/-- Settles O47: each of the eight forms has an opcode from 8 up and the given operand. -/
theorem reservedOpcodesOnlyAdvance : Obligations.ReservedOpcodesOnlyAdvance := by
  intro x s i hi
  obtain ⟨hop, hx⟩ : 8 ≤ (opcodeOf i).toNat ∧ operandOf i = x := by
    simp only [List.mem_cons, List.not_mem_nil, or_false] at hi
    rcases hi with rfl | rfl | rfl | rfl | rfl | rfl | rfl | rfl <;> simp [opcodeOf, operandOf]
  have hw := toNat_encodeWord i
  have hlt := x.isLt
  rw [hx] at hw
  exact ⟨by omega, by omega, advance s, exec_of_eight_le_opcodeOf s hop, rfl, advanced_advance rfl rfl,
    ⟨rfl, rfl, rfl⟩, fun _ _ => rfl⟩

end Sys2Proof.Machine
end

section
/-! PROOFS. The family 60_exceptions.md: the invariant under the host's actions, runs that never fault, refused
requests, fault entry and the ends of a run. Each statement stands after the laws it is made of. -/

namespace Sys2Proof.Machine

/-! ### The invariant under the host's actions -/

/-- Of memory the invariant asks the canonical form and nothing else. -/
theorem State.Inv.with_mem {s : State} (hi : s.Inv) {m : Memory} (hm : m.wf) : ({ s with mem := m } : State).Inv where
  memory_canonical := hm
  record_iff_faulted := hi.record_iff_faulted
  halted_at_sentinel := hi.halted_at_sentinel
  record_precise := hi.record_precise
  unfetched_fresh := hi.unfetched_fresh

/-- Settles O57: a step keeps the invariant, a fresh engine meets it, and every other action replaces at most the
memory, by a canonical one. -/
theorem hostActionsKeepTheInvariant : Obligations.HostActionsKeepTheInvariant := by
  intro a s t reply ha hi h
  rcases hostAct_cases a s with rfl | ⟨m, rfl, hact⟩ | ⟨m, r, hact, hm⟩
  · obtain ⟨u, hu, -⟩ := step_cases s
    rw [hostAct_step hu] at h
    cases h
    exact stepKeepsTheInvariant s t hi hu
  · rw [hact] at h
    cases h
    exact construct_inv ha
  · rw [hact] at h
    cases h
    have hwf := hi.memory_canonical
    refine hi.with_mem ?_
    rcases hm with rfl | ⟨space, i, w, -, rfl⟩ | ⟨space, i, k, b, -, rfl⟩ | ⟨ws, unreached, rfl, rfl⟩
    · exact hwf
    · exact memWrite_wf _ space i w hwf
    · exact memWriteBit_wf _ space i k b hwf
    · exact bulkLoad_wf ws unreached ha

/-! ### Runs that never fault -/

/-- What every step keeps, every run keeps. -/
theorem coreRun_keeps {P : State → Prop} (hstep : ∀ s t, P s → step s = .next t → P t) (k : Nat) {s t : State}
    (hs : P s) (h : Host.Core.run core k s = .next t) : P t := by
  induction k generalizing s with
  | zero =>
    rw [coreRun_zero] at h
    cases h
    exact hs
  | succ k ih =>
    obtain ⟨u, hu, -⟩ := step_cases s
    rw [coreRun_succ hu] at h
    exact ih (hstep s u hs hu) h

/-- R78: the engine has not faulted and Code holds no Word that could make it fault. -/
structure CannotFault (s : State) : Prop where
  code : ∀ i, faultingWord (memRead s.mem .code i) = false
  not_faulted : ¬s.endedInFault

/-- A step leaves Code as it is, and the Word it fetches stands there, so it does not enter the fault. -/
theorem CannotFault.step {s t : State} (hs : CannotFault s) (h : step s = .next t) : CannotFault t where
  code i := by rw [coreNeverWritesCode s t h i, hs.code i]
  not_faulted := by
    rcases step_next_cases h with ⟨-, rfl⟩ | ⟨-, -, rfl⟩ | ⟨w, hf, -⟩
    · exact hs.not_faulted
    · simp [State.endedInFault]
    · have hw : faultingWord w = false := by
        obtain ⟨-, i, -, rfl⟩ := hf
        exact hs.code i
      simp [State.endedInFault, run_of_fetches hf h, hw]

/-- Settles O58: `CannotFault` is kept along the run. -/
theorem codeWithoutFaultingWordsNeverFaults : Obligations.CodeWithoutFaultingWordsNeverFaults :=
  fun k _ _ hcode hs h => (coreRun_keeps (fun _ _ => CannotFault.step) k ⟨hcode, hs⟩ h).not_faulted

/-! ### Refused requests -/

theorem isSome_rawIndex (n k : Nat) : (rawIndex n k).isSome = decide (k < n) := by
  unfold rawIndex
  split <;> simp [*]

/-- R79: the pair of checks of a bit request. -/
theorem isSome_rawIndices {α : Type} (i k : Nat) (f : Index → BitIndex → α) :
    ((rawIndex 15 i).bind fun i => (rawIndex 8 k).map (f i)).isSome = (decide (i < 15) && decide (k < 8)) := by
  rw [← isSome_rawIndex, ← isSome_rawIndex]
  cases rawIndex 15 i with
  | none => rfl
  | some _ => exact Option.isSome_map

/-- R24, R79: exactly the requests in range stand for a typed action. -/
theorem isSome_typedRequest (r : RawRequest) : (typedRequest r).isSome = r.wf := by
  cases r with
  | readWord space i => exact Option.isSome_map.trans (isSome_rawIndex 15 i)
  | writeWord space i w => exact Option.isSome_map.trans (isSome_rawIndex 15 i)
  | readBit space i k => exact isSome_rawIndices i k _
  | writeBit space i k b => exact isSome_rawIndices i k _

theorem hostRequest_of_not_wf {r : RawRequest} (s : State) (hr : r.wf = false) :
    hostRequest r s = .refused .invariantViolation := by
  have hnone : typedRequest r = none := by simpa [← isSome_typedRequest] using hr
  rw [hostRequest, hnone]

theorem hostRequest_of_wf {r : RawRequest} (s : State) (hr : r.wf = true) :
    ∃ a, hostRequest r s = hostAct a s := by
  obtain ⟨a, ha⟩ := Option.isSome_iff_exists.mp ((isSome_typedRequest r).trans hr)
  exact ⟨a, by rw [hostRequest, ha]⟩

theorem step_ne_refused (s : State) (r : Refusal) : step s ≠ .refused r := by
  obtain ⟨t, ht, -⟩ := step_cases s
  simp [ht]

/-- Settles O20: the range check of a request, and that every typed action and every step is answered. -/
theorem outOfRangeRequestsAreRefused : Obligations.OutOfRangeRequestsAreRefused := by
  refine ⟨fun a b hlen => ⟨bitwiseRaw_of_length_ne _ hlen, bitwiseRaw_of_length_ne _ hlen,
    bitwiseRaw_of_length_ne _ hlen⟩, fun r s => ⟨hostRequest_of_not_wf s, fun hr => ?_, rfl,
    step_ne_refused s _, step_ne_refused s _⟩⟩
  obtain ⟨a, ha⟩ := hostRequest_of_wf s hr
  obtain ⟨t, reply, ht, -⟩ := whatTheHostCanChange a s
  exact ⟨t, reply, ha.trans ht⟩

/-! ### Fault entry, and the way out of a stop -/

/-- Settles O49: the step of a faulting Word enters the fault, and `Faulted` is a stop. -/
theorem faultEntryIsPrecise : Obligations.FaultEntryIsPrecise := fun _ _ hf hw =>
  have hstep := step_of_faultingWord hf hw
  ⟨hstep, stepReturns_of_not_running hstep (by simp), rfl, coreRun_of_stopped (by simp)⟩

/-- Settles O51: a fresh engine is `Running`. -/
theorem onlyConstructionLeavesAStop : Obligations.OnlyConstructionLeavesAStop := by
  intro a s t reply hr h
  rcases sameEngine_of_hostAct_of_stopped hr h with hsame | ⟨m, ha, rfl⟩
  · exact .inl hsame
  · exact .inr ⟨m, ha, construct_run m⟩

/-! ### The ends of a run -/

/-- R94: a run has not ended exactly while the engine is `Running` below the sentinel. -/
theorem State.ended_iff (s : State) :
    s.endedNormally ∨ s.endedInFault ↔ s.run ≠ .running ∨ s.pc = Config.haltSentinel := by
  cases hr : s.run <;> simp [State.endedNormally, State.endedInFault, hr]

theorem State.not_endedInFault_of_endedNormally {s : State} (h : s.endedNormally) : ¬s.endedInFault := by
  rcases h with ⟨hr, -⟩ | hr <;> simp [State.endedInFault, hr]

/-- R17, R81: a step that changes the record ends in `Faulted`. -/
theorem endedInFault_of_fault_ne {s t : State} (h : step s = .next t) (hne : t.fault ≠ s.fault) : t.endedInFault :=
  have ⟨_, hrun, _⟩ := faultRecordIsKept.1 s t h hne
  hrun

/-- Settles O59: the signal is false exactly if the engine stops or its next step halts, and a running engine's next
step halts exactly at the sentinel. -/
theorem endsOfARun : Obligations.EndsOfARun := by
  intro s t h
  obtain ⟨-, -, hsignal⟩ := continuationSignalLooksAhead s t h
  refine ⟨?_, fun hend => ?_⟩
  · rw [hsignal, State.ended_iff]
    exact or_congr_right' fun hr => step_eq_enterHalted_iff (not_not.mp hr)
  · have hfault := State.not_endedInFault_of_endedNormally hend
    exact ⟨not_not.mp (mt (endedInFault_of_fault_ne h) hfault), hfault⟩

end Sys2Proof.Machine
end

section
/-! PROOFS. The family 70_reset_and_hazards.md: a Word placed at `Code[pc]`. First the three operations of
`State.withFetchWord`, then the statement. -/

namespace Sys2Proof.Machine

/-! ### Placing a Word where the next step fetches -/

/-- A Word is the table word of its own eight bits. -/
@[simp] theorem tableWord_toNat (w : Word) : tableWord 8 w.toNat = w := by
  rw [tableWord, Nat.mod_eq_of_lt w.isLt, BitVec.ofNat_toNat, BitVec.setWidth_eq]

/-- An engine that would fetch is left as it is. -/
theorem readyToFetch_of_ready {s : State} (hr : s.run = .running) (hp : s.pc ≠ Config.haltSentinel) :
    readyToFetch s = s :=
  if_pos ⟨hr, hp⟩

/-- R84, R95: an engine that would not fetch is constructed anew. -/
theorem readyToFetch_of_not_ready {s : State} (h : ¬(s.run = .running ∧ s.pc ≠ Config.haltSentinel)) :
    readyToFetch s = construct s.mem :=
  if_neg h

/-- Both engines that `readyToFetch` can answer run below the sentinel, so it fetches some Word. -/
theorem fetches_readyToFetch (s : State) : ∃ w, fetches (readyToFetch s) w := by
  by_cases h : s.run = .running ∧ s.pc ≠ Config.haltSentinel
  · obtain ⟨hr, hp⟩ := h
    rw [readyToFetch_of_ready hr hp]
    exact fetches_of_running hr hp
  · rw [readyToFetch_of_not_ready h]
    exact fetches_of_running (construct_run s.mem) (by rw [construct_pc]; decide)

/-- R97: placing a Word at `Code[pc]` is one write of Code. -/
theorem placeAtPc_of_index {s : State} {i : Index} (w : Word) (hi : i.val = s.pc.toNat) :
    placeAtPc w s = { s with mem := memWrite s.mem .code i w } := by
  rw [placeAtPc, (storageIndex_eq_some s.pc i).mpr hi]

/-- An engine that fetches some Word fetches the Word placed at `Code[pc]` instead. -/
theorem fetches_placeAtPc {s : State} {v : Word} (w : Word) (hf : fetches s v) : fetches (placeAtPc w s) w := by
  obtain ⟨hr, i, hi, -⟩ := hf
  rw [placeAtPc_of_index w hi]
  exact ⟨hr, i, hi, memRead_memWrite_same s.mem .code i w⟩

theorem fetches_withFetchWord (s : State) (w : Word) : fetches (s.withFetchWord 8 w.toNat) w := by
  obtain ⟨_, hf⟩ := fetches_readyToFetch s
  rw [State.withFetchWord, tableWord_toNat]
  exact fetches_placeAtPc w hf

/-- On an engine that would fetch, `withFetchWord` is the write of the Word alone. -/
theorem withFetchWord_of_ready {s : State} {i : Index} (w : Word) (hr : s.run = .running)
    (hp : s.pc ≠ Config.haltSentinel) (hi : i.val = s.pc.toNat) :
    s.withFetchWord 8 w.toNat = { s with mem := memWrite s.mem .code i w } := by
  rw [State.withFetchWord, tableWord_toNat, readyToFetch_of_ready hr hp, placeAtPc_of_index w hi]

/-- Settles O60: the placed Word is fetched, and on an engine that would fetch nothing but that Word is written. -/
theorem placedWordIsExecutedNext : Obligations.PlacedWordIsExecutedNext := by
  intro s w t
  have hf : fetches t w := fetches_withFetchWord s w
  refine ⟨hf, step_of_fetches hf, fun hr hp => ?_⟩
  obtain ⟨_, -, i, hi, -⟩ := fetches_of_running hr hp
  have ht : t = { s with mem := memWrite s.mem .code i w } := withFetchWord_of_ready w hr hp hi
  rw [ht]
  refine ⟨⟨rfl, rfl, rfl, rfl, rfl, rfl⟩, fun j hj => ?_⟩
  obtain rfl : j = i := Fin.ext (hj.trans hi.symm)
  exact fun _ _ hne => memRead_memWrite_of_ne s.mem w hne

end Sys2Proof.Machine
end
